-- ==== Sys2Proof/Word.lean ====
section
/-! DEFINITION. The two word types of the block and the notation `b2n` of spec/00 section 6.1. -/

namespace Sys2Proof

/-- A register, an operand, a result: 8 bits, read as unsigned (R4, R11). -/
abbrev Byte := BitVec 8

/-- A command word on the 16-bit port (R42, R55). -/
abbrev Word := BitVec 16

/-- `b2n(true) = 1`, `b2n(false) = 0` (spec/00 section 6.1). -/
abbrev b2n (p : Bool) : Nat := p.toNat

end Sys2Proof
end

