-- ==== Sys2Proof/Syntax.lean ====
section
/-! DEFINITION. The closed `Instruction` type of R40 as one inductive with a constructor for each of the 21 rows of
spec/opcode_table.json, and the names its words, its host commands and its notation are made of. -/

namespace Sys2Proof

/-- The closed enumeration of seven registers {A, B, C, D, E, H, L} (R10); F is not one of them. -/
inductive Reg
  | a | b | c | d | e | h | l
  deriving DecidableEq, Repr

/-- The seven families, in the order of R43. -/
inductive Family
  | add | adc | sub | sbc | and | or | xor
  deriving DecidableEq, Repr

/-- The three forms, in the order of R44. -/
inductive Form
  | register | immediate | indirect
  deriving DecidableEq, Repr

/-- What a value of the instruction type carries beside its family (R40); the indirect form carries nothing (D13). -/
inductive Operand
  | reg (r : Reg)
  | imm (n : Byte)
  | ind
  deriving DecidableEq, Repr

/-- One constructor for each row of spec/opcode_table.json (R40, R51). -/
inductive Instr
  | addReg (r : Reg) | addImm (n : Byte) | addInd
  | adcReg (r : Reg) | adcImm (n : Byte) | adcInd
  | subReg (r : Reg) | subImm (n : Byte) | subInd
  | sbcReg (r : Reg) | sbcImm (n : Byte) | sbcInd
  | andReg (r : Reg) | andImm (n : Byte) | andInd
  | orReg (r : Reg) | orImm (n : Byte) | orInd
  | xorReg (r : Reg) | xorImm (n : Byte) | xorInd
  deriving DecidableEq, Repr

/-- The four operations the ALU has (R65). -/
inductive AluOp
  | add | adc | sub | sbc
  deriving DecidableEq, Repr

/-- The eight byte locations of the host ports `sel` and `rd_sel` (R25): seven registers and F. -/
inductive Sel
  | reg (r : Reg)
  | flags
  deriving DecidableEq, Repr

/-- The four fields of a 16-bit instruction word (R42), before any check. -/
structure WordFields where
  fam  : BitVec 3
  form : BitVec 2
  reg  : BitVec 3
  imm  : Byte
  deriving DecidableEq, Repr

/-- The three fields of a 16-bit store word (R55), before any check. -/
structure StoreFields where
  top  : BitVec 5
  sel  : BitVec 3
  data : Byte
  deriving DecidableEq, Repr

/-- A store word that is not reserved (R55). -/
structure StoreWord where
  sel  : Sel
  data : Byte
  deriving DecidableEq, Repr

/-- A line of a host listing (R56): an instruction, or one of the three lines that are not instructions. -/
inductive HostLine
  | instr (i : Instr)
  | store (sel : Sel) (n : Byte)
  | reset
  | idle
  deriving DecidableEq, Repr

end Sys2Proof
end

