-- ==== Sys2Proof/WellFormed.lean ====
section
/-! DEFINITION. Which field values make an instruction word or a store word (R45, R47, R48, R55).
Every term of `Instr` is a value of the source's type ("the type system excludes invalid names", R14), so the checks are on
the raw fields of a word, where a bad value can be written down. -/

namespace Sys2Proof

/-- `fam` is not the reserved code 7 (R43). -/
def WordFields.famOk (f : WordFields) : Bool := f.fam != 7#3

/-- `form` is not the reserved code 3 (R44). -/
def WordFields.formOk (f : WordFields) : Bool := f.form != 3#2

/-- `reg` is a register code in the register form and zero in the others (R45, R47). -/
def WordFields.regOk (f : WordFields) : Bool :=
  if f.form == 0#2 then f.reg != 7#3 else f.reg == 0#3

/-- `imm` is zero in the register and the indirect form (R46, R47). -/
def WordFields.immOk (f : WordFields) : Bool :=
  if f.form == 1#2 then true else f.imm == 0#8

/-- The fields are those of an instruction word: of no class of R48. -/
def WordFields.wellFormed (f : WordFields) : Bool := f.famOk && f.formOk && f.regOk && f.immOk

/-- The fields are those of a store word: bits 15..11 are zero (R55). -/
def StoreFields.wellFormed (f : StoreFields) : Bool := f.top == 0#5

end Sys2Proof
end

