-- ==== Sys2Proof/Decode.lean ====
section
/-! DEFINITION. Instruction words and store words: codes, decoding (total, rejecting by name), encoding, the opcode map.
Codes R25, R43, R44; fields R42, R55; decoding R49; encoding R50; map R51; classes of reserved words R48. -/

namespace Sys2Proof

/-! ### The instruction type as family and operand (R40) -/

/-- The value of family `f` and operand `x`. -/
def Instr.of : Family → Operand → Instr
  | .add, .reg r => .addReg r | .add, .imm n => .addImm n | .add, .ind => .addInd
  | .adc, .reg r => .adcReg r | .adc, .imm n => .adcImm n | .adc, .ind => .adcInd
  | .sub, .reg r => .subReg r | .sub, .imm n => .subImm n | .sub, .ind => .subInd
  | .sbc, .reg r => .sbcReg r | .sbc, .imm n => .sbcImm n | .sbc, .ind => .sbcInd
  | .and, .reg r => .andReg r | .and, .imm n => .andImm n | .and, .ind => .andInd
  | .or, .reg r => .orReg r | .or, .imm n => .orImm n | .or, .ind => .orInd
  | .xor, .reg r => .xorReg r | .xor, .imm n => .xorImm n | .xor, .ind => .xorInd

/-- The family of an instruction value. -/
def Instr.family : Instr → Family
  | .addReg _ | .addImm _ | .addInd => .add
  | .adcReg _ | .adcImm _ | .adcInd => .adc
  | .subReg _ | .subImm _ | .subInd => .sub
  | .sbcReg _ | .sbcImm _ | .sbcInd => .sbc
  | .andReg _ | .andImm _ | .andInd => .and
  | .orReg _ | .orImm _ | .orInd => .or
  | .xorReg _ | .xorImm _ | .xorInd => .xor

/-- What an instruction value carries beside its family. -/
def Instr.operand : Instr → Operand
  | .addReg r | .adcReg r | .subReg r | .sbcReg r | .andReg r | .orReg r | .xorReg r => .reg r
  | .addImm n | .adcImm n | .subImm n | .sbcImm n | .andImm n | .orImm n | .xorImm n => .imm n
  | .addInd | .adcInd | .subInd | .sbcInd | .andInd | .orInd | .xorInd => .ind

/-- The form an operand belongs to. -/
def Operand.form : Operand → Form
  | .reg _ => .register
  | .imm _ => .immediate
  | .ind => .indirect

/-- The form of an instruction value. -/
def Instr.form (i : Instr) : Form := i.operand.form

/-- The engine implements ADD, ADC, SUB and SBC and no other family (R43, row "engine"). -/
def Family.implemented : Family → Bool
  | .add | .adc | .sub | .sbc => true
  | .and | .or | .xor => false

/-- An implemented variant: a register or immediate form of ADD, ADC, SUB or SBC; every other is inert (R51, R52). -/
def Instr.implemented (i : Instr) : Bool := i.family.implemented && i.form != .indirect

/-! ### Codes -/

/-- Register selector codes (R25). -/
def Reg.code : Reg → BitVec 3
  | .a => 0 | .b => 1 | .c => 2 | .d => 3 | .e => 4 | .h => 5 | .l => 6

/-- The register with a code; code 7 names none (R25, R45). -/
def Reg.ofCode (c : BitVec 3) : Option Reg :=
  match c.toNat with
  | 0 => some .a | 1 => some .b | 2 => some .c | 3 => some .d
  | 4 => some .e | 5 => some .h | 6 => some .l | _ => none

/-- Selector codes of the host ports (R25): code 7 is F. -/
def Sel.code : Sel → BitVec 3
  | .reg r => r.code
  | .flags => 7

/-- The location with a selector code: all eight are legal (R25, R55). -/
def Sel.ofCode (c : BitVec 3) : Sel :=
  match Reg.ofCode c with
  | some r => .reg r
  | none => .flags

/-- Family codes (R43). -/
def Family.code : Family → BitVec 3
  | .add => 0 | .adc => 1 | .sub => 2 | .sbc => 3 | .and => 4 | .or => 5 | .xor => 6

/-- The family with a code; code 7 is reserved (R43). -/
def Family.ofCode (c : BitVec 3) : Option Family :=
  match c.toNat with
  | 0 => some .add | 1 => some .adc | 2 => some .sub | 3 => some .sbc
  | 4 => some .and | 5 => some .or | 6 => some .xor | _ => none

/-- Form codes (R44). -/
def Form.code : Form → BitVec 2
  | .register => 0 | .immediate => 1 | .indirect => 2

/-- The form with a code; code 3 is reserved (R44). -/
def Form.ofCode (c : BitVec 2) : Option Form :=
  match c.toNat with
  | 0 => some .register | 1 => some .immediate | 2 => some .indirect | _ => none

/-! ### Fields of a word -/

/-- `fam = w[15:13]`, `form = w[12:11]`, `reg = w[10:8]`, `imm = w[7:0]` (R42, R49). -/
def splitWord (w : Word) : WordFields :=
  { fam := w.extractLsb' 13 3, form := w.extractLsb' 11 2, reg := w.extractLsb' 8 3, imm := w.extractLsb' 0 8 }

/-- The word with the given fields (R42). -/
def joinWord (f : WordFields) : Word := f.fam ++ f.form ++ f.reg ++ f.imm

/-- Bits 15..11, `sel = sw[10:8]`, `data = sw[7:0]` (R55). -/
def splitStore (w : Word) : StoreFields :=
  { top := w.extractLsb' 11 5, sel := w.extractLsb' 8 3, data := w.extractLsb' 0 8 }

/-! ### Decoding -/

/-- Why a command word is reserved: the five classes of R48, and R55's for store words. -/
inductive DecodeError
  | reservedFamily | reservedForm | badRegisterForm | badImmediateForm | badIndirectForm
  | reservedStoreWord
  deriving DecidableEq, Repr

/-- Decoding of the four fields, in the order of R49's tests. -/
def decodeFields (f : WordFields) : Except DecodeError Instr :=
  match Family.ofCode f.fam with
  | none => .error .reservedFamily
  | some fam =>
    match Form.ofCode f.form with
    | none => .error .reservedForm
    | some .register =>
      match Reg.ofCode f.reg with
      | some r => if f.imm = 0#8 then .ok (.of fam (.reg r)) else .error .badRegisterForm
      | none => .error .badRegisterForm
    | some .immediate => if f.reg = 0#3 then .ok (.of fam (.imm f.imm)) else .error .badImmediateForm
    | some .indirect =>
      if f.reg = 0#3 ∧ f.imm = 0#8 then .ok (.of fam .ind) else .error .badIndirectForm

/-- `decode_iw` (R49): total on 16-bit words. -/
def decodeWord (w : Word) : Except DecodeError Instr := decodeFields (splitWord w)

/-- Decoding of a store word (R55). -/
def decodeStoreWord (w : Word) : Except DecodeError StoreWord :=
  let f := splitStore w
  if f.top = 0#5 then .ok ⟨Sel.ofCode f.sel, f.data⟩ else .error .reservedStoreWord

/-- The table's word of `nbits` bits, given to the decoder as the 16-bit port value it is: every bit from `nbits` up is zero.
A number that does not fit the port is no word (log 13). -/
def decodeTableWord (nbits w : Nat) : Option Instr :=
  let v := w % 2 ^ nbits
  if v < 65536 then (decodeWord (BitVec.ofNat 16 v)).toOption else none

/-! ### Encoding -/

/-- The fields of an instruction value; a field its form does not use is zero (R47). -/
def Instr.fields (i : Instr) : WordFields :=
  match i.operand with
  | .reg r => { fam := i.family.code, form := i.form.code, reg := r.code, imm := 0 }
  | .imm n => { fam := i.family.code, form := i.form.code, reg := 0, imm := n }
  | .ind => { fam := i.family.code, form := i.form.code, reg := 0, imm := 0 }

/-- `encode_iw` (R50). -/
def encodeWord (i : Instr) : Word := joinWord i.fields

/-- `sw = (sel << 8) | data` (R55). -/
def encodeStoreWord (s : StoreWord) : Word := 0#5 ++ s.sel.code ++ s.data

/-! ### The opcode map -/

/-- A row of R51's opcode map. -/
structure OpcodeRow where
  family : Family
  form : Form
  pattern : Word
  mask : Word
  implemented : Bool
  deriving DecidableEq, Repr

/-- A word selects a row when `w & mask == match` and, for a register row, `reg != 7` (R51). -/
def OpcodeRow.selects (row : OpcodeRow) (w : Word) : Bool :=
  (w &&& row.mask) == row.pattern && (row.form != .register || w.extractLsb' 8 3 != 7#3)

/-- Rows ADD to SBC of the opcode map (R51). -/
def opcodeMapArithmetic : List OpcodeRow :=
  [⟨.add, .register, 0x0000, 0xF8FF, true⟩, ⟨.add, .immediate, 0x0800, 0xFF00, true⟩, ⟨.add, .indirect, 0x1000, 0xFFFF, false⟩,
   ⟨.adc, .register, 0x2000, 0xF8FF, true⟩, ⟨.adc, .immediate, 0x2800, 0xFF00, true⟩, ⟨.adc, .indirect, 0x3000, 0xFFFF, false⟩,
   ⟨.sub, .register, 0x4000, 0xF8FF, true⟩, ⟨.sub, .immediate, 0x4800, 0xFF00, true⟩, ⟨.sub, .indirect, 0x5000, 0xFFFF, false⟩,
   ⟨.sbc, .register, 0x6000, 0xF8FF, true⟩, ⟨.sbc, .immediate, 0x6800, 0xFF00, true⟩, ⟨.sbc, .indirect, 0x7000, 0xFFFF, false⟩]

/-- Rows AND to XOR of the opcode map (R51). -/
def opcodeMapLogic : List OpcodeRow :=
  [⟨.and, .register, 0x8000, 0xF8FF, false⟩, ⟨.and, .immediate, 0x8800, 0xFF00, false⟩, ⟨.and, .indirect, 0x9000, 0xFFFF, false⟩,
   ⟨.or, .register, 0xA000, 0xF8FF, false⟩, ⟨.or, .immediate, 0xA800, 0xFF00, false⟩, ⟨.or, .indirect, 0xB000, 0xFFFF, false⟩,
   ⟨.xor, .register, 0xC000, 0xF8FF, false⟩, ⟨.xor, .immediate, 0xC800, 0xFF00, false⟩, ⟨.xor, .indirect, 0xD000, 0xFFFF, false⟩]

/-- The opcode map, written out from R51 and independent of `decodeWord`. -/
def opcodeMap : List OpcodeRow := opcodeMapArithmetic ++ opcodeMapLogic

end Sys2Proof
end

