-- ==== Sys2Proof/Config.lean ====
section
/-! DEFINITION. The two parameters the spec names and leaves to a model to spell out (spec/00 section 5), with this
hardware's value of each. -/

namespace Sys2Proof

/-- `HC_SUB_MODE` (U3): which nibble test the half-carry of SUB and SBC uses. -/
inductive HcSubMode
  /-- `(A & 0xF) + (X & 0xF) + k > 0xF`, the test R65, R90 and R93 give this block. -/
  | addStyle
  /-- The conventional borrow test, which the source says this block does NOT use (log 6). -/
  | borrowStyle
  deriving DecidableEq, Repr

/-- `UNIMPL_POLICY` (U6): what an enumerated but unimplemented variant does. -/
inductive UnimplPolicy
  /-- Choice (a) of R70: accepted, no state change. -/
  | silentNoop
  /-- Choice (b) of R70: a programming-error signal, in a model a refusal. -/
  | refuse
  deriving DecidableEq, Repr

/-- `HC_SUB_MODE = ADD_STYLE` (R65, D19, C2). UNVERIFIED: the source itself awaits confirmation (log 5, unsafe). -/
def Config.hcSubMode : HcSubMode := .addStyle

/-- `UNIMPL_POLICY = SILENT_NOOP` (R70, D11, C7; log 7, unsafe). -/
def Config.unimplPolicy : UnimplPolicy := .silentNoop

end Sys2Proof
end

