-- ==== Sys2Proof/Machine/State.lean ====
section
/-! DEFINITION. The state: the 60 bits the spec gives the block (spec/10 section 1) and, beside them, what the host
presents on the input ports in this clock and the following ones. Faults and refusals. Reset. -/

namespace Sys2Proof.Machine

open Sys2Proof

/-- The seven independent 8-bit general registers (R10, R12). -/
structure Regs where
  a : Byte
  b : Byte
  c : Byte
  d : Byte
  e : Byte
  h : Byte
  l : Byte
  deriving DecidableEq, Repr

/-- The flags register F: four booleans and no low nibble (R15, U1). -/
structure Flags where
  zero : Bool
  subtraction : Bool
  halfCarry : Bool
  carry : Bool
  deriving DecidableEq, Repr

/-- The `cmd_kind` input: 0 EXECUTE, 1 STORE (R60). -/
inductive CmdKind
  | execute
  | store
  deriving DecidableEq, Repr

/-- The five input ports beside `clk`, as they stand in one clock (R60). -/
structure Inputs where
  rst : Bool
  cmdValid : Bool
  cmdKind : CmdKind
  cmdWord : Word
  rdSel : BitVec 3
  deriving DecidableEq, Repr

/-- The two output ports (R60). -/
structure Outputs where
  cmdInvalid : Bool
  rdData : Byte
  deriving DecidableEq, Repr

/-- The block's state (`regs`, `flags`: R10, R15, R21) and the host's input ports clock by clock: the head of `inputs` is on
the ports now, the rest comes in later clocks (R62, R144). DESIGN CHOICE: `inputs` is the model's field (log 1). -/
structure State where
  regs : Regs
  flags : Flags
  inputs : List Inputs
  deriving DecidableEq, Repr

/-- The block itself raises no fault (R120). -/
inductive Fault
  /-- Raised by `Safety.strictStep` alone, never by `step`: the clock applies the command word `w`, which is reserved for its
  `cmd_kind` (U4). Safe: a strict run stops where the hardware goes on unchanged (log 4). -/
  | reservedWord (kind : CmdKind) (w : Word)
  deriving DecidableEq, Repr

/-- Why the model answers nothing. -/
inductive Refusal
  /-- Raised by an arm of `exec` whose instruction has no meaning; no arm is left so. Safe. -/
  | notModelled (mnemonic : String)
  /-- Raised by an inert variant under `UNIMPL_POLICY = refuse` (U6), never at this hardware's value of it. Safe. -/
  | unimplementedVariant
  deriving DecidableEq, Repr

/-- All registers at zero (R23). -/
def Regs.zero : Regs := ⟨0, 0, 0, 0, 0, 0, 0⟩

/-- All flags false (R23). -/
def Flags.clear : Flags := ⟨false, false, false, false⟩

/-- The state right after reset (R23), the host having nothing to present yet (log 1, log 3). -/
def State.reset : State := ⟨.zero, .clear, []⟩

end Sys2Proof.Machine
end

