-- ==== Sys2Proof/Machine/Flags.lean ====
section
/-! DEFINITION. The flag byte (R16, R17) and the 8-bit ALU with its four flags (R65). -/

namespace Sys2Proof.Machine

open Sys2Proof

/-- `encode`: zero at bit 7, subtraction 6, half_carry 5, carry 4, bits 3..0 zero (R15, R16). -/
def Flags.encode (f : Flags) : Byte :=
  BitVec.ofBool f.zero ++ BitVec.ofBool f.subtraction ++ BitVec.ofBool f.halfCarry ++ BitVec.ofBool f.carry ++ 0#4

/-- `decode`: total, the low nibble has no effect (R17). -/
def Flags.decode (b : Byte) : Flags :=
  { zero := b.getLsbD 7, subtraction := b.getLsbD 6, halfCarry := b.getLsbD 5, carry := b.getLsbD 4 }

/-- What the ALU answers: the 8-bit result and all four flags (R65). -/
structure AluOut where
  res : Byte
  flags : Flags
  deriving DecidableEq, Repr

/-- `k` of R65: the carry-in for ADC and SBC, 0 for ADD and SUB, which do not read the carry flag. -/
def carryIn (op : AluOp) (cin : Bool) : Nat :=
  match op with
  | .add | .sub => 0
  | .adc | .sbc => b2n cin

/-- The low nibble of a byte as a number. -/
def lowNibble (v : Byte) : Nat := (v &&& 0xF#8).toNat

/-- The half-carry of ADD and ADC: a carry out of bit 3 (R65). -/
def halfCarryAdd (a x : Byte) (k : Nat) : Bool := decide (lowNibble a + lowNibble x + k > 0xF)

/-- The half-carry of SUB and SBC under a value of `HC_SUB_MODE` (U3). The borrow-style formula for `k = 1` is PRESUMED from
general knowledge (K4, log 6) and is not this block's. -/
def halfCarrySub (mode : HcSubMode) (a x : Byte) (k : Nat) : Bool :=
  match mode with
  | .addStyle => decide (lowNibble a + lowNibble x + k > 0xF)
  | .borrowStyle => decide (lowNibble a < lowNibble x + k)

/-- The two addition steps, operand first and then carry-in: the wrapped result and the OR of both overflows (R65, D23). -/
def addSteps (a x : Byte) (k : Nat) : Byte × Bool :=
  let s1 := a.toNat + x.toNat
  let r1 := s1 % 256
  let s2 := r1 + k
  (BitVec.ofNat 8 (s2 % 256), decide (s1 > 255) || decide (s2 > 255))

/-- The two subtraction steps, operand first and then carry-in, on integers: the wrapped result and the OR of both underflows
(R65, D23). -/
def subSteps (a x : Byte) (k : Nat) : Byte × Bool :=
  let d1 : Int := a.toNat - x.toNat
  let r1 : Int := d1 % 256
  let d2 : Int := r1 - k
  (BitVec.ofInt 8 (d2 % 256), decide (a.toNat < x.toNat) || decide (r1 < k))

/-- The result, half-carry, carry and subtraction flag of an operation put together; zero is taken from the 8-bit result (R65). -/
def aluOut (steps : Byte × Bool) (subtraction halfCarry : Bool) : AluOut :=
  { res := steps.1
    flags := { zero := steps.1 == 0#8, subtraction := subtraction, halfCarry := halfCarry, carry := steps.2 } }

/-- `ALU(op, a, x, cin)` (R65). -/
def alu (op : AluOp) (a x : Byte) (cin : Bool) : AluOut :=
  let k := carryIn op cin
  match op with
  | .add | .adc => aluOut (addSteps a x k) false (halfCarryAdd a x k)
  | .sub | .sbc => aluOut (subSteps a x k) true (halfCarrySub Config.hcSubMode a x k)

end Sys2Proof.Machine
end

