-- ==== Sys2Proof/Machine/Ops.lean ====
section
/-! DEFINITION. The named operations on the register file, the flags and the clocked inputs.
There is no memory, no pc and no exception to take or return from (R20, R30, R120, R125), so none of those has an operation. -/

namespace Sys2Proof.Machine

open Sys2Proof

/-- The register file's read accessor (R14). -/
def Regs.load (g : Regs) : Reg → Byte
  | .a => g.a | .b => g.b | .c => g.c | .d => g.d | .e => g.e | .h => g.h | .l => g.l

/-- The register file's write accessor: one register, no other (R12, R74). -/
def Regs.store (g : Regs) (r : Reg) (v : Byte) : Regs :=
  match r with
  | .a => { g with a := v } | .b => { g with b := v } | .c => { g with c := v } | .d => { g with d := v }
  | .e => { g with e := v } | .h => { g with h := v } | .l => { g with l := v }

/-- `x[r]` of a state. -/
def State.load (s : State) (r : Reg) : Byte := s.regs.load r

/-- `x[r] <- v` on a state; F and the other registers keep their values. -/
def State.store (s : State) (r : Reg) (v : Byte) : State := { s with regs := s.regs.store r v }

/-- `F <- f`: all four flags at once (R19). -/
def State.setFlags (s : State) (f : Flags) : State := { s with flags := f }

/-- The shared handler of the implemented families: A and F of the pre-state go into the ALU with the resolved operand, and the
result and all four flags are written together (R64, R66, R67). -/
def arith (op : AluOp) (x : Byte) (s : State) : Host.Outcome State Fault Refusal :=
  let out := alu op (s.load .a) x s.flags.carry
  .next ((s.store .a out.res).setFlags out.flags)

/-- An inert variant under a value of `UNIMPL_POLICY` (R69, R70, U6). -/
def inertUnder (policy : UnimplPolicy) (s : State) : Host.Outcome State Fault Refusal :=
  match policy with
  | .silentNoop => .next s
  | .refuse => .refused .unimplementedVariant

/-- The shared handler of the thirteen inert variants: nothing changes (R69, R70). -/
def inert (s : State) : Host.Outcome State Fault Refusal := inertUnder Config.unimplPolicy s

/-- The host's STORE: one register, or F through `decode` (R74, R75). -/
def hostStore (sw : StoreWord) (s : State) : State :=
  match sw.sel with
  | .reg r => s.store r sw.data
  | .flags => s.setFlags (Flags.decode sw.data)

/-- A clock with `rst = 1`: every register and flag takes its reset value; what the host presents later is not the block's and
stays (R140, R142, log 9). -/
def hostReset (s : State) : State := { State.reset with inputs := s.inputs }

end Sys2Proof.Machine
end

