-- ==== Sys2Proof/Machine/Operands.lean ====
section
/-! DEFINITION. Operand resolution (R46, R64): the second operand X of an implemented variant, from the pre-state. -/

namespace Sys2Proof.Machine

open Sys2Proof

/-- The register form's operand: the register's value before the instruction, A included (R64, R71, R146). -/
def regOperand (r : Reg) (s : State) : Byte := s.load r

/-- The immediate form's operand: the byte as it stands, not extended, scaled or shifted (R46). -/
def immOperand (n : Byte) : Byte := n

end Sys2Proof.Machine
end

