-- ==== Sys2Proof/Machine/AddAdc.lean ====
section
/-! DEFINITION. The six instructions of spec/41: ADD and ADC. -/

namespace Sys2Proof.Machine

open Sys2Proof

/-- `ADD r` (R81). -/
def execAddReg (r : Reg) (s : State) : Host.Outcome State Fault Refusal := arith .add (regOperand r s) s

/-- `ADD #n` (R80). -/
def execAddImm (n : Byte) (s : State) : Host.Outcome State Fault Refusal := arith .add (immOperand n) s

/-- `ADD @`, inert (R82). -/
def execAddInd (s : State) : Host.Outcome State Fault Refusal := inert s

/-- `ADC r` (R84). -/
def execAdcReg (r : Reg) (s : State) : Host.Outcome State Fault Refusal := arith .adc (regOperand r s) s

/-- `ADC #n` (R83). -/
def execAdcImm (n : Byte) (s : State) : Host.Outcome State Fault Refusal := arith .adc (immOperand n) s

/-- `ADC @`, inert: the carry flag is neither consumed nor cleared (R85). -/
def execAdcInd (s : State) : Host.Outcome State Fault Refusal := inert s

end Sys2Proof.Machine
end

