-- ==== Sys2Proof/Machine/Logic.lean ====
section
/-! DEFINITION. The nine instructions of spec/43: AND, OR and XOR, all inert. Their register or byte is named and not read. -/

namespace Sys2Proof.Machine

open Sys2Proof

/-- `AND r`, inert (R100). -/
def execAndReg (_ : Reg) (s : State) : Host.Outcome State Fault Refusal := inert s

/-- `AND #n`, inert (R101). -/
def execAndImm (_ : Byte) (s : State) : Host.Outcome State Fault Refusal := inert s

/-- `AND @`, inert (R102). -/
def execAndInd (s : State) : Host.Outcome State Fault Refusal := inert s

/-- `OR r`, inert (R103). -/
def execOrReg (_ : Reg) (s : State) : Host.Outcome State Fault Refusal := inert s

/-- `OR #n`, inert (R104). -/
def execOrImm (_ : Byte) (s : State) : Host.Outcome State Fault Refusal := inert s

/-- `OR @`, inert (R105). -/
def execOrInd (s : State) : Host.Outcome State Fault Refusal := inert s

/-- `XOR r`, inert: `XOR A` does not clear A (R106). -/
def execXorReg (_ : Reg) (s : State) : Host.Outcome State Fault Refusal := inert s

/-- `XOR #n`, inert (R107). -/
def execXorImm (_ : Byte) (s : State) : Host.Outcome State Fault Refusal := inert s

/-- `XOR @`, inert (R108). -/
def execXorInd (s : State) : Host.Outcome State Fault Refusal := inert s

end Sys2Proof.Machine
end

