-- ==== Sys2Proof/Machine/SubSbc.lean ====
section
/-! DEFINITION. The six instructions of spec/42: SUB and SBC. Their half-carry is the addition-style test (C2). -/

namespace Sys2Proof.Machine

open Sys2Proof

/-- `SUB r` (R91). -/
def execSubReg (r : Reg) (s : State) : Host.Outcome State Fault Refusal := arith .sub (regOperand r s) s

/-- `SUB #n` (R90). -/
def execSubImm (n : Byte) (s : State) : Host.Outcome State Fault Refusal := arith .sub (immOperand n) s

/-- `SUB @`, inert (R92). -/
def execSubInd (s : State) : Host.Outcome State Fault Refusal := inert s

/-- `SBC r` (R94). -/
def execSbcReg (r : Reg) (s : State) : Host.Outcome State Fault Refusal := arith .sbc (regOperand r s) s

/-- `SBC #n` (R93). -/
def execSbcImm (n : Byte) (s : State) : Host.Outcome State Fault Refusal := arith .sbc (immOperand n) s

/-- `SBC @`, inert: the carry flag is neither consumed nor cleared (R95). -/
def execSbcInd (s : State) : Host.Outcome State Fault Refusal := inert s

end Sys2Proof.Machine
end

