-- ==== Sys2Proof/Machine/Dispatch.lean ====
section
/-! DEFINITION. `execute` (R66): one arm for each constructor of `Instr`, each a direct call of the instruction's meaning. -/

namespace Sys2Proof.Machine

open Sys2Proof

def exec (i : Instr) (s : State) : Host.Outcome State Fault Refusal :=
  match i with
  | .addReg r => Sys2Proof.Machine.execAddReg r s
  | .addImm n => Sys2Proof.Machine.execAddImm n s
  | .addInd => Sys2Proof.Machine.execAddInd s
  | .adcReg r => Sys2Proof.Machine.execAdcReg r s
  | .adcImm n => Sys2Proof.Machine.execAdcImm n s
  | .adcInd => Sys2Proof.Machine.execAdcInd s
  | .subReg r => Sys2Proof.Machine.execSubReg r s
  | .subImm n => Sys2Proof.Machine.execSubImm n s
  | .subInd => Sys2Proof.Machine.execSubInd s
  | .sbcReg r => Sys2Proof.Machine.execSbcReg r s
  | .sbcImm n => Sys2Proof.Machine.execSbcImm n s
  | .sbcInd => Sys2Proof.Machine.execSbcInd s
  | .andReg r => Sys2Proof.Machine.execAndReg r s
  | .andImm n => Sys2Proof.Machine.execAndImm n s
  | .andInd => Sys2Proof.Machine.execAndInd s
  | .orReg r => Sys2Proof.Machine.execOrReg r s
  | .orImm n => Sys2Proof.Machine.execOrImm n s
  | .orInd => Sys2Proof.Machine.execOrInd s
  | .xorReg r => Sys2Proof.Machine.execXorReg r s
  | .xorImm n => Sys2Proof.Machine.execXorImm n s
  | .xorInd => Sys2Proof.Machine.execXorInd s

end Sys2Proof.Machine
end

