-- ==== Sys2Proof/Machine/Ports.lean ====
section
/-! DEFINITION. The ports of R60: what the host can put on the inputs in one clock, and the two outputs. -/

namespace Sys2Proof.Machine

open Sys2Proof

/-- A clock with no command (R73). DESIGN CHOICE: `rd_sel` holds 0, here and in the three clocks built on this one; the spec
leaves it to the host (log 14). -/
def Inputs.idle : Inputs := { rst := false, cmdValid := false, cmdKind := .execute, cmdWord := 0, rdSel := 0 }

/-- A clock that presents `E:w`, with `rd_sel` 0 (log 14). -/
def Inputs.execute (w : Word) : Inputs := { Inputs.idle with cmdValid := true, cmdKind := .execute, cmdWord := w }

/-- A clock that presents `S:w`, with `rd_sel` 0 (log 14). -/
def Inputs.store (w : Word) : Inputs := { Inputs.idle with cmdValid := true, cmdKind := .store, cmdWord := w }

/-- A clock with `rst = 1` and no command (R140), with `rd_sel` 0 (log 14). -/
def Inputs.reset : Inputs := { Inputs.idle with rst := true }

/-- What stands on the input ports in this clock; when the host's list has run out it idles (R73, log 2). -/
def State.pins (s : State) : Inputs := s.inputs.headD Inputs.idle

/-- The same block with the next clock's inputs on the ports. -/
def State.nextClock (s : State) : State := { s with inputs := s.inputs.tail }

/-- The state in which the host presents `p` first and then what it would have presented. -/
def State.present (s : State) (p : Inputs) : State := { s with inputs := p :: s.inputs }

/-- `decode_iw(w) == RESERVED` (R48, R49). -/
def reservedInstrWord (w : Word) : Bool :=
  match decodeWord w with
  | .ok _ => false
  | .error _ => true

/-- `sw[15:11] != 0` (R55). -/
def reservedStoreWord (w : Word) : Bool :=
  match decodeStoreWord w with
  | .ok _ => false
  | .error _ => true

/-- The `cmd_invalid` output: a function of `cmd_valid`, `cmd_kind` and `cmd_word` alone, not of `rst` or the state (R72, C10). -/
def Inputs.cmdInvalid (p : Inputs) : Bool :=
  p.cmdValid && match p.cmdKind with
    | .execute => reservedInstrWord p.cmdWord
    | .store => reservedStoreWord p.cmdWord

/-- The read port: `load` of the selected register, `encode(F)` for selector 7 (R76, R77). -/
def State.readPort (s : State) (rdSel : BitVec 3) : Byte :=
  match Sel.ofCode rdSel with
  | .reg r => s.load r
  | .flags => s.flags.encode

/-- Both outputs in this clock, before the edge that ends it (R72, R76, R148). -/
def State.outputs (s : State) : Outputs := { cmdInvalid := s.pins.cmdInvalid, rdData := s.readPort s.pins.rdSel }

end Sys2Proof.Machine
end

