-- ==== Sys2Proof/Machine/Clock.lean ====
section
/-! DEFINITION. What one rising edge of `clk` does with the inputs that stand on the ports (R61), and how a command word is
put there. -/

namespace Sys2Proof.Machine

open Sys2Proof

/-- An EXECUTE command: the decoded instruction runs; a reserved word changes nothing (R61, R72, log 4). -/
def clockExecute (w : Word) (s : State) : Host.Outcome State Fault Refusal :=
  match decodeWord w with
  | .ok i => exec i s
  | .error _ => .next s

/-- A STORE command; a reserved store word changes nothing (R61, R72). -/
def clockStore (w : Word) (s : State) : Host.Outcome State Fault Refusal :=
  match decodeStoreWord w with
  | .ok sw => .next (hostStore sw s)
  | .error _ => .next s

/-- The four steps of R61 in their priority order: reset, idle, EXECUTE, STORE. -/
def clockEdge (p : Inputs) (s : State) : Host.Outcome State Fault Refusal :=
  if p.rst then .next (hostReset s)
  else if !p.cmdValid then .next s
  else match p.cmdKind with
    | .execute => clockExecute p.cmdWord s
    | .store => clockStore p.cmdWord s

/-- The EXECUTE command of a table word of `nbits` bits, every bit above them zero, with `rd_sel` 0 (log 14). -/
def fetchInputs (nbits w : Nat) : Inputs := Inputs.execute (BitVec.ofNat 16 (w % 2 ^ nbits))

end Sys2Proof.Machine
end

