-- ==== Sys2Proof/Machine/Step.lean ====
section
/-! DEFINITION. One step: one rising edge of `clk` (D1). -/

namespace Sys2Proof.Machine

open Sys2Proof

/-- The edge takes what stands on the ports, and the next clock's inputs come up behind it (R61, R62). -/
def step (s : State) : Host.Outcome State Fault Refusal := clockEdge s.pins s.nextClock

/-- The host presents the word as the next EXECUTE command, before whatever else it would present (log 3). -/
def State.withFetchWord (s : State) (nbits w : Nat) : State := s.present (fetchInputs nbits w)

end Sys2Proof.Machine
end

