-- ==== Sys2Proof/Machine/Asm.lean ====
section
/-! DEFINITION. The notation of R56 for instructions and host lines, on lists of characters: writing a line, reading a line,
and the inputs a line puts on the ports. There is no pseudo-instruction (R57). -/

namespace Sys2Proof.Machine

open Sys2Proof

/-- `family` of R56. -/
def spellFamily : Family → List Char
  | .add => ['A', 'D', 'D'] | .adc => ['A', 'D', 'C'] | .sub => ['S', 'U', 'B'] | .sbc => ['S', 'B', 'C']
  | .and => ['A', 'N', 'D'] | .or => ['O', 'R'] | .xor => ['X', 'O', 'R']

/-- `register` of R56. -/
def spellReg : Reg → Char
  | .a => 'A' | .b => 'B' | .c => 'C' | .d => 'D' | .e => 'E' | .h => 'H' | .l => 'L'

/-- A register or F, as in a STORE line (R56). -/
def spellSel : Sel → Char
  | .reg r => spellReg r
  | .flags => 'F'

/-- A hex digit; both cases of a letter are read (log 11). -/
def hexDigit (c : Char) : Option Nat :=
  if '0' ≤ c ∧ c ≤ '9' then some (c.toNat - 48)
  else if 'A' ≤ c ∧ c ≤ 'F' then some (c.toNat - 55)
  else if 'a' ≤ c ∧ c ≤ 'f' then some (c.toNat - 87)
  else none

/-- The upper-case digit of a number below 16. -/
def hexChar (n : Nat) : Char := Char.ofNat (if n < 10 then 48 + n else 55 + n)

/-- `"0x" two hex digits`, the spelling this model writes. -/
def spellByte (n : Byte) : List Char := ['0', 'x', hexChar (n.toNat / 16), hexChar (n.toNat % 16)]

/-- A run of decimal digits, most significant first, after the value `acc`. -/
def readDecimal (acc : Nat) : List Char → Option Nat
  | [] => some acc
  | c :: cs => if '0' ≤ c ∧ c ≤ '9' then readDecimal (10 * acc + (c.toNat - 48)) cs else none

/-- `number` of R56: `0x` and two hex digits, or a decimal number 0 to 255. -/
def readByte : List Char → Option Byte
  | ['0', 'x', h, l] =>
    match hexDigit h, hexDigit l with
    | some h, some l => some (BitVec.ofNat 8 (16 * h + l))
    | _, _ => none
  | [] => none
  | cs =>
    match readDecimal 0 cs with
    | some n => if n < 256 then some (BitVec.ofNat 8 n) else none
    | none => none

/-- `operand` of R56. -/
def spellOperand : Operand → List Char
  | .reg r => [spellReg r]
  | .imm n => '#' :: spellByte n
  | .ind => ['@']

/-- A line of a host listing, written (R56). -/
def spellLine : HostLine → List Char
  | .instr i => spellFamily i.family ++ ' ' :: spellOperand i.operand
  | .store sel n => ['S', 'T', 'O', 'R', 'E', ' ', spellSel sel, ',', ' ', '#'] ++ spellByte n
  | .reset => ['R', 'E', 'S', 'E', 'T']
  | .idle => ['I', 'D', 'L', 'E']

/-- The register a letter names. -/
def readReg : Char → Option Reg
  | 'A' => some .a | 'B' => some .b | 'C' => some .c | 'D' => some .d | 'E' => some .e
  | 'H' => some .h | 'L' => some .l | _ => none

/-- The register or F a letter names. -/
def readSel (c : Char) : Option Sel :=
  if c = 'F' then some .flags else (readReg c).map .reg

/-- `operand` of R56, read. -/
def readOperand : List Char → Option Operand
  | ['@'] => some .ind
  | '#' :: cs => (readByte cs).map .imm
  | [c] => (readReg c).map .reg
  | _ => none

/-- A line of a host listing, read (R56). -/
def readLine : List Char → Option HostLine
  | 'A' :: 'D' :: 'D' :: ' ' :: cs => (readOperand cs).map fun x => .instr (.of .add x)
  | 'A' :: 'D' :: 'C' :: ' ' :: cs => (readOperand cs).map fun x => .instr (.of .adc x)
  | 'S' :: 'U' :: 'B' :: ' ' :: cs => (readOperand cs).map fun x => .instr (.of .sub x)
  | 'S' :: 'B' :: 'C' :: ' ' :: cs => (readOperand cs).map fun x => .instr (.of .sbc x)
  | 'A' :: 'N' :: 'D' :: ' ' :: cs => (readOperand cs).map fun x => .instr (.of .and x)
  | 'O' :: 'R' :: ' ' :: cs => (readOperand cs).map fun x => .instr (.of .or x)
  | 'X' :: 'O' :: 'R' :: ' ' :: cs => (readOperand cs).map fun x => .instr (.of .xor x)
  | 'S' :: 'T' :: 'O' :: 'R' :: 'E' :: ' ' :: c :: ',' :: ' ' :: '#' :: cs =>
    match readSel c, readByte cs with
    | some sel, some n => some (.store sel n)
    | _, _ => none
  | ['R', 'E', 'S', 'E', 'T'] => some .reset
  | ['I', 'D', 'L', 'E'] => some .idle
  | _ => none

/-- The inputs a line stands for in its clock (R56, R60). DESIGN CHOICE: `rd_sel` holds 0 in the clock of every line; R56 does not
say what it holds, and it shows in `rd_data` alone (log 14). -/
def lineInputs : HostLine → Inputs
  | .instr i => Inputs.execute (encodeWord i)
  | .store sel n => Inputs.store (encodeStoreWord ⟨sel, n⟩)
  | .reset => Inputs.reset
  | .idle => Inputs.idle

end Sys2Proof.Machine
end

