-- ==== Sys2Proof/Safety.lean ====
section
/-! DEFINITION. What counts as a run that goes right: no clock applies a reserved word (U4). Also the terms the whole-machine
statements use: which clocks can write a register or the flags, and which change nothing. -/

namespace Sys2Proof.Machine

open Sys2Proof

/-- The clock applies a reserved word: one is presented and `rst` does not take its place (R72, R124). -/
def Inputs.appliesReserved (p : Inputs) : Bool := !p.rst && p.cmdInvalid

/-- The step U4 recommends: it stops where a reserved word is applied, and is `step` elsewhere (log 4). -/
def strictStep (s : State) : Host.Outcome State Fault Refusal :=
  if s.pins.appliesReserved then .fault (.reservedWord s.pins.cmdKind s.pins.cmdWord) else step s

/-- The machine with the strict step. -/
def strictCore : Host.Core :=
  { State := State, Fault := Fault, Refusal := Refusal, step := strictStep, reset := State.reset }

/-- The clock is a STORE command with a word that is not reserved, and it goes to `sel`. -/
def Inputs.storesTo (p : Inputs) (sel : Sel) : Bool :=
  !p.rst && p.cmdValid && p.cmdKind == .store &&
    match decodeStoreWord p.cmdWord with
    | .ok sw => sw.sel == sel
    | .error _ => false

/-- The clock is an EXECUTE command of an instruction, and the instruction is this one. -/
def Inputs.executes (p : Inputs) (i : Instr) : Bool :=
  !p.rst && p.cmdValid && p.cmdKind == .execute &&
    match decodeWord p.cmdWord with
    | .ok j => j == i
    | .error _ => false

/-- The clock is an EXECUTE command of an implemented variant. -/
def Inputs.executesImplemented (p : Inputs) : Bool :=
  !p.rst && p.cmdValid && p.cmdKind == .execute &&
    match decodeWord p.cmdWord with
    | .ok i => i.implemented
    | .error _ => false

/-- The three kinds of clock that do nothing (R52): an idle clock, a reserved word, an inert variant. -/
def Inputs.doesNothing (p : Inputs) : Bool :=
  !p.rst && (!p.cmdValid || p.cmdInvalid ||
    (p.cmdKind == .execute &&
      match decodeWord p.cmdWord with
      | .ok i => !i.implemented
      | .error _ => false))

/-- What holds of F from reset on while the host never STOREs to F: a zero result with a half-carry but no carry does not come
from an addition (0xA0), and a zero result with a borrow but no half-carry does not come from a subtraction (0xD0) (R65). -/
def FlagByteReachable (s : State) : Prop :=
  s.flags.encode ≠ 0xA0#8 ∧ s.flags.encode ≠ 0xD0#8 ∧ ∀ p ∈ s.inputs, p.storesTo .flags = false

/-- What holds of a register from reset on while the host never STOREs to it: it holds 0x00 (R74). -/
def HoldsZeroUnstored (r : Reg) (s : State) : Prop :=
  s.load r = 0#8 ∧ ∀ p ∈ s.inputs, p.storesTo (.reg r) = false

end Sys2Proof.Machine
end

