-- ==== Sys2Proof/Certificates/Slice0/Obligations.lean ====
section
/-! DEFINITION. The statements for the provers. Each docstring names the rule of spec/ it formalises. -/

open Sys2Proof Sys2Proof.Machine

/-! ### State and reset -/

/-- R23: after reset every register is 0x00 and every flag false, so `encode(F)` is 0x00. -/
def Obligations.ResetStateIsAllZero : Prop :=
  (∀ r : Reg, State.reset.load r = 0x00#8) ∧
  State.reset.flags = ⟨false, false, false, false⟩ ∧
  State.reset.flags.encode = 0x00#8

/-- R16, R17, R18: the flag byte, bit by bit, and both round-trip laws. -/
def Obligations.FlagByteEncodesAndDecodes : Prop :=
  (∀ f : Flags, f.encode.toNat = 128 * b2n f.zero + 64 * b2n f.subtraction + 32 * b2n f.halfCarry + 16 * b2n f.carry) ∧
  (∀ b : Byte, Flags.decode b =
    ⟨b.toNat.testBit 7, b.toNat.testBit 6, b.toNat.testBit 5, b.toNat.testBit 4⟩) ∧
  (∀ f : Flags, Flags.decode f.encode = f) ∧
  (∀ b : Byte, (Flags.decode b).encode = b &&& 0xF0#8)

/-- R12: the seven registers are independent, and no write of one touches another register or a flag. -/
def Obligations.RegistersAreIndependent : Prop :=
  ∀ (s : State) (r : Reg) (v : Byte),
    (s.store r v).load r = v ∧ (∀ r' : Reg, r' = r ∨ (s.store r v).load r' = s.load r') ∧
    (s.store r v).flags = s.flags

/-! ### Words -/

/-- R25, R43, R44: register, family and form codes; code 7 is F on the host ports, names no register of an instruction word and
no family, form code 3 names no form, and the engine implements the first four families. -/
def Obligations.RegisterFamilyAndFormCodes : Prop :=
  (Reg.a.code = 0 ∧ Reg.b.code = 1 ∧ Reg.c.code = 2 ∧ Reg.d.code = 3 ∧ Reg.e.code = 4 ∧ Reg.h.code = 5 ∧ Reg.l.code = 6) ∧
  (∀ r : Reg, Reg.ofCode r.code = some r ∧ Sel.ofCode r.code = .reg r) ∧ Reg.ofCode 7 = none ∧ Sel.ofCode 7 = .flags ∧
  (Family.add.code = 0b000 ∧ Family.adc.code = 0b001 ∧ Family.sub.code = 0b010 ∧ Family.sbc.code = 0b011 ∧
    Family.and.code = 0b100 ∧ Family.or.code = 0b101 ∧ Family.xor.code = 0b110) ∧
  (∀ f : Family, Family.ofCode f.code = some f) ∧ Family.ofCode 0b111 = none ∧
  (∀ f : Family, f.implemented = true ↔ f.code.toNat ≤ 3) ∧
  (Form.register.code = 0b00 ∧ Form.immediate.code = 0b01 ∧ Form.indirect.code = 0b10) ∧
  (∀ f : Form, Form.ofCode f.code = some f) ∧ Form.ofCode 0b11 = none

/-- R50: encoding by shifts, decode after encode, encode after decode, distinct words, and 1848 instruction words. -/
def Obligations.InstructionWordsRoundTrip : Prop :=
  (∀ (f : Family) (r : Reg), (encodeWord (.of f (.reg r))).toNat = f.code.toNat <<< 13 ||| 0 <<< 11 ||| r.code.toNat <<< 8) ∧
  (∀ (f : Family) (n : Byte), (encodeWord (.of f (.imm n))).toNat = f.code.toNat <<< 13 ||| 1 <<< 11 ||| n.toNat) ∧
  (∀ f : Family, (encodeWord (.of f .ind)).toNat = f.code.toNat <<< 13 ||| 2 <<< 11) ∧
  (∀ i : Instr, decodeWord (encodeWord i) = .ok i) ∧
  (∀ (w : Word) (i : Instr), decodeWord w = .ok i → encodeWord i = w) ∧
  (∀ i j : Instr, encodeWord i = encodeWord j → i = j) ∧
  (∃ words : List Word, words.length = 1848 ∧ words.Nodup ∧ ∀ w : Word, w ∈ words ↔ ∃ i, decodeWord w = .ok i)

/-- R49: what every one of the 65536 words decodes to, by the values of its four fields. -/
def Obligations.DecodingByFields : Prop :=
  ∀ w : Word,
    let fam := w.toNat / 8192
    let form := w.toNat / 2048 % 4
    let reg := w.toNat / 256 % 8
    let imm := w.toNat % 256
    (fam = 7 → decodeWord w = .error .reservedFamily) ∧
    (fam ≤ 6 ∧ form = 0 ∧ reg ≤ 6 ∧ imm = 0 → ∃ (f : Family) (r : Reg),
      f.code.toNat = fam ∧ r.code.toNat = reg ∧ decodeWord w = .ok (.of f (.reg r))) ∧
    (fam ≤ 6 ∧ form = 0 ∧ ¬(reg ≤ 6 ∧ imm = 0) → decodeWord w = .error .badRegisterForm) ∧
    (fam ≤ 6 ∧ form = 1 ∧ reg = 0 → ∃ f : Family,
      f.code.toNat = fam ∧ decodeWord w = .ok (.of f (.imm (BitVec.ofNat 8 imm)))) ∧
    (fam ≤ 6 ∧ form = 1 ∧ reg ≠ 0 → decodeWord w = .error .badImmediateForm) ∧
    (fam ≤ 6 ∧ form = 2 ∧ reg = 0 ∧ imm = 0 → ∃ f : Family, f.code.toNat = fam ∧ decodeWord w = .ok (.of f .ind)) ∧
    (fam ≤ 6 ∧ form = 2 ∧ ¬(reg = 0 ∧ imm = 0) → decodeWord w = .error .badIndirectForm) ∧
    (fam ≤ 6 ∧ form = 3 → decodeWord w = .error .reservedForm)

/-- R51: the opcode map, written out from the spec as match and mask, and the decoder agree on every word: a legal word selects
the one row of its family and form, a reserved word selects none, and the row's engine column says which variants are inert. -/
def Obligations.OpcodeMapAgreesWithDecoder : Prop :=
  (∀ w : Word, (opcodeMap.filter fun row => row.selects w) =
    match decodeWord w with
    | .ok i => opcodeMap.filter fun row => row.family == i.family && row.form == i.form
    | .error _ => []) ∧
  (∀ i : Instr, ∃ row : OpcodeRow, (opcodeMap.filter fun row => row.family == i.family && row.form == i.form) = [row] ∧
    row.implemented = i.implemented)

/-- R55: store words, both ways, and exactly the words with a bit of 15..11 set are reserved. -/
def Obligations.StoreWordsRoundTrip : Prop :=
  (∀ x : StoreWord, encodeStoreWord x = x.sel.code.setWidth 16 <<< 8 ||| x.data.setWidth 16) ∧
  (∀ x : StoreWord, decodeStoreWord (encodeStoreWord x) = .ok x) ∧
  (∀ (w : Word) (x : StoreWord), decodeStoreWord w = .ok x → encodeStoreWord x = w) ∧
  (∀ w : Word, decodeStoreWord w = .error .reservedStoreWord ↔ w.toNat / 2048 ≠ 0)

/-- Words of spec/95 section 2.6, at least one for each family and each class of reserved words. -/
def Obligations.SampleWordsDecode : Prop :=
  decodeWord 0x0600#16 = .ok (.addReg .l) ∧ decodeWord 0x08FF#16 = .ok (.addImm 0xFF) ∧ decodeWord 0x28E5#16 = .ok (.adcImm 0xE5) ∧
  decodeWord 0x4000#16 = .ok (.subReg .a) ∧ decodeWord 0x7000#16 = .ok .sbcInd ∧ decodeWord 0x8100#16 = .ok (.andReg .b) ∧
  decodeWord 0xA8FF#16 = .ok (.orImm 0xFF) ∧ decodeWord 0xC600#16 = .ok (.xorReg .l) ∧
  decodeWord 0xE000#16 = .error .reservedFamily ∧ decodeWord 0x1800#16 = .error .reservedForm ∧
  decodeWord 0xC700#16 = .error .badRegisterForm ∧ decodeWord 0x0FFF#16 = .error .badImmediateForm ∧
  decodeWord 0xD001#16 = .error .badIndirectForm

/-! ### The ALU -/

/-- R65: both steps of each operation, the closed forms, the four flags; ADD and SUB are ADC and SBC with carry-in 0; taking the
carry first gives the same result and carry; the result is the wrapping sum or difference. `k` is the carry-in. -/
def Obligations.AluTwoStepsAndClosedForms : Prop :=
  ∀ (a x : Byte) (cin : Bool),
    let k := b2n cin
    let h := decide ((a &&& 0xF#8).toNat + (x &&& 0xF#8).toNat + k > 0xF)
    let up := alu .adc a x cin
    let down := alu .sbc a x cin
    (up.res = BitVec.ofNat 8 (a.toNat + x.toNat + k) ∧ up.res = a + x + BitVec.ofNat 8 k ∧
      up.flags = ⟨up.res == 0#8, false, h, decide (a.toNat + x.toNat + k > 255)⟩ ∧
      up.flags.carry = (decide (a.toNat + x.toNat > 255) || decide ((a.toNat + x.toNat) % 256 + k > 255)) ∧
      up.flags.carry = (decide (a.toNat + k > 255) || decide ((a.toNat + k) % 256 + x.toNat > 255))) ∧
    (down.res = BitVec.ofInt 8 ((a.toNat : Int) - x.toNat - k) ∧ down.res = a - x - BitVec.ofNat 8 k ∧
      down.flags = ⟨down.res == 0#8, true, h, decide (a.toNat < x.toNat + k)⟩ ∧
      down.flags.carry = (decide (a.toNat < x.toNat) || decide (((a.toNat : Int) - x.toNat) % 256 < k)) ∧
      down.flags.carry = (decide (a.toNat < k) || decide (((a.toNat : Int) - k) % 256 < x.toNat))) ∧
    alu .add a x cin = alu .adc a x false ∧ alu .sub a x cin = alu .sbc a x false

/-- R65 (1) and U3: the half-carry of SUB depends on the low nibbles alone, and on exactly half of their 256 pairs it differs
from the conventional borrow test, which this block does not use. -/
def Obligations.SubHalfCarryIsNotBorrow : Prop :=
  (∀ (a x : Byte) (cin : Bool),
    (alu .sub a x cin).flags.halfCarry = (alu .sub (a &&& 0xF#8) (x &&& 0xF#8) cin).flags.halfCarry) ∧
  (List.range 256).countP (fun p =>
    (alu .sub (BitVec.ofNat 8 (p / 16)) (BitVec.ofNat 8 (p % 16)) false).flags.halfCarry != decide (p / 16 < p % 16)) = 128

/-- Law V11 of spec/95: the flag bytes an operation of the ALU can leave, exactly. -/
def Obligations.FlagBytesEachOperationCanLeave : Prop :=
  let leaves (op : AluOp) (b : Byte) : Prop := ∃ (a x : Byte) (cin : Bool), (alu op a x cin).flags.encode = b
  (∀ b, leaves .add b ↔ b ∈ [0x00#8, 0x10#8, 0x20#8, 0x30#8, 0x80#8, 0x90#8, 0xB0#8]) ∧
  (∀ b, leaves .adc b ↔ b ∈ [0x00#8, 0x10#8, 0x20#8, 0x30#8, 0x80#8, 0x90#8, 0xB0#8]) ∧
  (∀ b, leaves .sub b ↔ b ∈ [0x40#8, 0x50#8, 0x60#8, 0x70#8, 0xC0#8, 0xE0#8]) ∧
  (∀ b, leaves .sbc b ↔ b ∈ [0x40#8, 0x50#8, 0x60#8, 0x70#8, 0xC0#8, 0xE0#8, 0xF0#8]) ∧
  (∀ (op : AluOp) (a x : Byte) (cin : Bool),
    (alu op a x cin).flags.encode = 0xF0#8 ↔ op = .sbc ∧ a = 0x00#8 ∧ x = 0xFF#8 ∧ cin = true)

/-! ### The eight implemented variants: word, result, flags, and everything else as it was -/

/-- R80. -/
def Obligations.AddImmediateResult : Prop :=
  ∀ (n : Byte) (s : State),
    encodeWord (.addImm n) = 0x0800#16 ||| n.setWidth 16 ∧ decodeWord (0x0800#16 ||| n.setWidth 16) = .ok (.addImm n) ∧
    exec (.addImm n) s = .next { s with
      regs := { s.regs with a := BitVec.ofNat 8 (s.regs.a.toNat + n.toNat) }
      flags :=
        { zero := decide ((s.regs.a.toNat + n.toNat) % 256 = 0)
          subtraction := false
          halfCarry := decide ((s.regs.a &&& 0xF#8).toNat + (n &&& 0xF#8).toNat > 0xF)
          carry := decide (s.regs.a.toNat + n.toNat > 255) } }

/-- R81: as R80 with the register's pre-state value. -/
def Obligations.AddRegisterResult : Prop :=
  ∀ (r : Reg) (s : State),
    let v := s.load r
    encodeWord (.addReg r) = 0x0000#16 ||| r.code.setWidth 16 <<< 8 ∧
    decodeWord (0x0000#16 ||| r.code.setWidth 16 <<< 8) = .ok (.addReg r) ∧
    exec (.addReg r) s = exec (.addImm v) s ∧
    exec (.addReg r) s = .next { s with
      regs := { s.regs with a := BitVec.ofNat 8 (s.regs.a.toNat + v.toNat) }
      flags :=
        { zero := decide ((s.regs.a.toNat + v.toNat) % 256 = 0)
          subtraction := false
          halfCarry := decide ((s.regs.a &&& 0xF#8).toNat + (v &&& 0xF#8).toNat > 0xF)
          carry := decide (s.regs.a.toNat + v.toNat > 255) } }

/-- R83. -/
def Obligations.AdcImmediateResult : Prop :=
  ∀ (n : Byte) (s : State),
    let k := b2n s.flags.carry
    encodeWord (.adcImm n) = 0x2800#16 ||| n.setWidth 16 ∧ decodeWord (0x2800#16 ||| n.setWidth 16) = .ok (.adcImm n) ∧
    exec (.adcImm n) s = .next { s with
      regs := { s.regs with a := BitVec.ofNat 8 (s.regs.a.toNat + n.toNat + k) }
      flags :=
        { zero := decide ((s.regs.a.toNat + n.toNat + k) % 256 = 0)
          subtraction := false
          halfCarry := decide ((s.regs.a &&& 0xF#8).toNat + (n &&& 0xF#8).toNat + k > 0xF)
          carry := decide (s.regs.a.toNat + n.toNat + k > 255) } }

/-- R84: as R83 with the register's pre-state value. -/
def Obligations.AdcRegisterResult : Prop :=
  ∀ (r : Reg) (s : State),
    let v := s.load r
    let k := b2n s.flags.carry
    encodeWord (.adcReg r) = 0x2000#16 ||| r.code.setWidth 16 <<< 8 ∧
    decodeWord (0x2000#16 ||| r.code.setWidth 16 <<< 8) = .ok (.adcReg r) ∧
    exec (.adcReg r) s = exec (.adcImm v) s ∧
    exec (.adcReg r) s = .next { s with
      regs := { s.regs with a := BitVec.ofNat 8 (s.regs.a.toNat + v.toNat + k) }
      flags :=
        { zero := decide ((s.regs.a.toNat + v.toNat + k) % 256 = 0)
          subtraction := false
          halfCarry := decide ((s.regs.a &&& 0xF#8).toNat + (v &&& 0xF#8).toNat + k > 0xF)
          carry := decide (s.regs.a.toNat + v.toNat + k > 255) } }

/-- R90, with the addition-style half-carry. -/
def Obligations.SubImmediateResult : Prop :=
  ∀ (n : Byte) (s : State),
    encodeWord (.subImm n) = 0x4800#16 ||| n.setWidth 16 ∧ decodeWord (0x4800#16 ||| n.setWidth 16) = .ok (.subImm n) ∧
    exec (.subImm n) s = .next { s with
      regs := { s.regs with a := BitVec.ofInt 8 ((s.regs.a.toNat : Int) - n.toNat) }
      flags :=
        { zero := decide (((s.regs.a.toNat : Int) - n.toNat) % 256 = 0)
          subtraction := true
          halfCarry := decide ((s.regs.a &&& 0xF#8).toNat + (n &&& 0xF#8).toNat > 0xF)
          carry := decide (s.regs.a.toNat < n.toNat) } }

/-- R91: as R90 with the register's pre-state value. -/
def Obligations.SubRegisterResult : Prop :=
  ∀ (r : Reg) (s : State),
    let v := s.load r
    encodeWord (.subReg r) = 0x4000#16 ||| r.code.setWidth 16 <<< 8 ∧
    decodeWord (0x4000#16 ||| r.code.setWidth 16 <<< 8) = .ok (.subReg r) ∧
    exec (.subReg r) s = exec (.subImm v) s ∧
    exec (.subReg r) s = .next { s with
      regs := { s.regs with a := BitVec.ofInt 8 ((s.regs.a.toNat : Int) - v.toNat) }
      flags :=
        { zero := decide (((s.regs.a.toNat : Int) - v.toNat) % 256 = 0)
          subtraction := true
          halfCarry := decide ((s.regs.a &&& 0xF#8).toNat + (v &&& 0xF#8).toNat > 0xF)
          carry := decide (s.regs.a.toNat < v.toNat) } }

/-- R93, with the addition-style half-carry. -/
def Obligations.SbcImmediateResult : Prop :=
  ∀ (n : Byte) (s : State),
    let k := b2n s.flags.carry
    encodeWord (.sbcImm n) = 0x6800#16 ||| n.setWidth 16 ∧ decodeWord (0x6800#16 ||| n.setWidth 16) = .ok (.sbcImm n) ∧
    exec (.sbcImm n) s = .next { s with
      regs := { s.regs with a := BitVec.ofInt 8 ((s.regs.a.toNat : Int) - n.toNat - k) }
      flags :=
        { zero := decide (((s.regs.a.toNat : Int) - n.toNat - k) % 256 = 0)
          subtraction := true
          halfCarry := decide ((s.regs.a &&& 0xF#8).toNat + (n &&& 0xF#8).toNat + k > 0xF)
          carry := decide (s.regs.a.toNat < n.toNat + k) } }

/-- R94: as R93 with the register's pre-state value. -/
def Obligations.SbcRegisterResult : Prop :=
  ∀ (r : Reg) (s : State),
    let v := s.load r
    let k := b2n s.flags.carry
    encodeWord (.sbcReg r) = 0x6000#16 ||| r.code.setWidth 16 <<< 8 ∧
    decodeWord (0x6000#16 ||| r.code.setWidth 16 <<< 8) = .ok (.sbcReg r) ∧
    exec (.sbcReg r) s = exec (.sbcImm v) s ∧
    exec (.sbcReg r) s = .next { s with
      regs := { s.regs with a := BitVec.ofInt 8 ((s.regs.a.toNat : Int) - v.toNat - k) }
      flags :=
        { zero := decide (((s.regs.a.toNat : Int) - v.toNat - k) % 256 = 0)
          subtraction := true
          halfCarry := decide ((s.regs.a &&& 0xF#8).toNat + (v &&& 0xF#8).toNat + k > 0xF)
          carry := decide (s.regs.a.toNat < v.toNat + k) } }

/-! ### The thirteen inert variants: word, legal, and nothing changes -/

/-- R69, R82, R85, R92, R95: the indirect form of every family is accepted and changes nothing; the four arithmetic words. -/
def Obligations.IndirectFormsAreInert : Prop :=
  ∀ s : State,
    (∀ f : Family, exec (.of f .ind) s = .next s) ∧
    (exec .addInd s = .next s ∧ exec .adcInd s = .next s ∧ exec .subInd s = .next s ∧ exec .sbcInd s = .next s) ∧
    (encodeWord .addInd = 0x1000#16 ∧ encodeWord .adcInd = 0x3000#16 ∧ encodeWord .subInd = 0x5000#16 ∧
      encodeWord .sbcInd = 0x7000#16) ∧
    (decodeWord 0x1000#16 = .ok .addInd ∧ decodeWord 0x3000#16 = .ok .adcInd ∧ decodeWord 0x5000#16 = .ok .subInd ∧
      decodeWord 0x7000#16 = .ok .sbcInd) ∧
    (∀ f : Family, (Inputs.execute (encodeWord (.of f .ind))).cmdInvalid = false)

/-- R100, R101, R102: AND in every form. -/
def Obligations.AndIsInert : Prop :=
  (∀ (r : Reg) (s : State), exec (.andReg r) s = .next s ∧ encodeWord (.andReg r) = 0x8000#16 ||| r.code.setWidth 16 <<< 8 ∧
    decodeWord (0x8000#16 ||| r.code.setWidth 16 <<< 8) = .ok (.andReg r)) ∧
  (∀ (n : Byte) (s : State), exec (.andImm n) s = .next s ∧ encodeWord (.andImm n) = 0x8800#16 ||| n.setWidth 16 ∧
    decodeWord (0x8800#16 ||| n.setWidth 16) = .ok (.andImm n)) ∧
  (∀ s : State, exec .andInd s = .next s ∧ encodeWord .andInd = 0x9000#16 ∧ decodeWord 0x9000#16 = .ok .andInd) ∧
  (∀ x : Operand, (Inputs.execute (encodeWord (.of .and x))).cmdInvalid = false)

/-- R103, R104, R105: OR in every form. -/
def Obligations.OrIsInert : Prop :=
  (∀ (r : Reg) (s : State), exec (.orReg r) s = .next s ∧ encodeWord (.orReg r) = 0xA000#16 ||| r.code.setWidth 16 <<< 8 ∧
    decodeWord (0xA000#16 ||| r.code.setWidth 16 <<< 8) = .ok (.orReg r)) ∧
  (∀ (n : Byte) (s : State), exec (.orImm n) s = .next s ∧ encodeWord (.orImm n) = 0xA800#16 ||| n.setWidth 16 ∧
    decodeWord (0xA800#16 ||| n.setWidth 16) = .ok (.orImm n)) ∧
  (∀ s : State, exec .orInd s = .next s ∧ encodeWord .orInd = 0xB000#16 ∧ decodeWord 0xB000#16 = .ok .orInd) ∧
  (∀ x : Operand, (Inputs.execute (encodeWord (.of .or x))).cmdInvalid = false)

/-- R106, R107, R108: XOR in every form. -/
def Obligations.XorIsInert : Prop :=
  (∀ (r : Reg) (s : State), exec (.xorReg r) s = .next s ∧ encodeWord (.xorReg r) = 0xC000#16 ||| r.code.setWidth 16 <<< 8 ∧
    decodeWord (0xC000#16 ||| r.code.setWidth 16 <<< 8) = .ok (.xorReg r)) ∧
  (∀ (n : Byte) (s : State), exec (.xorImm n) s = .next s ∧ encodeWord (.xorImm n) = 0xC800#16 ||| n.setWidth 16 ∧
    decodeWord (0xC800#16 ||| n.setWidth 16) = .ok (.xorImm n)) ∧
  (∀ s : State, exec .xorInd s = .next s ∧ encodeWord .xorInd = 0xD000#16 ∧ decodeWord 0xD000#16 = .ok .xorInd) ∧
  (∀ x : Operand, (Inputs.execute (encodeWord (.of .xor x))).cmdInvalid = false)

/-- R70: every instruction of an unimplemented family, in every form, leaves every register and flag unchanged. -/
def Obligations.UnimplementedFamiliesAreInert : Prop :=
  ∀ (x : Operand) (s : State),
    exec (.of .and x) s = .next s ∧ exec (.of .or x) s = .next s ∧ exec (.of .xor x) s = .next s

/-! ### Laws of `execute` over all instructions -/

/-- R71: a register form is the immediate form of the register's value, in all seven families. -/
def Obligations.RegisterFormIsImmediateForm : Prop :=
  ∀ (f : Family) (r : Reg) (s : State), exec (.of f (.reg r)) s = exec (.of f (.imm (s.load r))) s

/-- R68: `execute` is total and touches A and F alone, and those for the implemented variants alone. -/
def Obligations.ExecuteTotalAndFramed : Prop :=
  ∀ (i : Instr) (s : State), ∃ t : State, exec i s = .next t ∧
    (∀ r : Reg, r = .a ∨ t.load r = s.load r) ∧ t.inputs = s.inputs ∧
    (i.implemented = true ∨ t = s)

/-- R19: an instruction reads no flag but the carry, and only ADC and SBC in an implemented form read that: with the same
registers, the registers after agree whatever the other flags were, and an implemented variant leaves the same four flags. -/
def Obligations.OnlyAdcAndSbcReadCarry : Prop :=
  ∀ (i : Instr) (g : Regs) (f f' : Flags) (ps : List Inputs),
    ∃ t t' : State, exec i ⟨g, f, ps⟩ = .next t ∧ exec i ⟨g, f', ps⟩ = .next t' ∧
      (f.carry = f'.carry ∨ i.family = .add ∨ i.family = .sub ∨ i.implemented = false → t.regs = t'.regs ∧
        (i.implemented = true → t.flags = t'.flags)) ∧
      (i.implemented = false → t.flags = f ∧ t'.flags = f')

/-- R146: the accumulator as its own operand; both reads take the value before the instruction. -/
def Obligations.AccumulatorAsOwnOperand : Prop :=
  ∀ s : State,
    let a := s.regs.a
    let k := b2n s.flags.carry
    let half := decide (a.toNat % 16 ≥ 8)
    exec (.addReg .a) s = .next { s with
      regs := { s.regs with a := BitVec.ofNat 8 (2 * a.toNat) }
      flags := ⟨decide (a = 0x00#8 ∨ a = 0x80#8), false, half, decide (a.toNat ≥ 0x80)⟩ } ∧
    exec (.adcReg .a) s = .next { s with
      regs := { s.regs with a := BitVec.ofNat 8 (2 * a.toNat + k) }
      flags := ⟨decide ((a = 0x00#8 ∨ a = 0x80#8) ∧ k = 0), false, half, decide (a.toNat ≥ 0x80)⟩ } ∧
    exec (.subReg .a) s = .next { s with
      regs := { s.regs with a := 0x00#8 }
      flags := ⟨true, true, half, false⟩ } ∧
    exec (.sbcReg .a) s = .next { s with
      regs := { s.regs with a := if k = 0 then 0x00#8 else 0xFF#8 }
      flags := ⟨decide (k = 0), true, half, decide (k = 1)⟩ }

/-- R145: ADD of the low bytes and ADC of the high bytes, with the low result taken away and the high byte put into A between
them, add 16-bit numbers; the last carry is the carry of the 16-bit sum. -/
def Obligations.AddThenAdcAddsSixteenBits : Prop :=
  ∀ (x y : BitVec 16) (s : State), ∃ t u : State,
    exec (.addImm (y.extractLsb' 0 8)) (s.store .a (x.extractLsb' 0 8)) = .next t ∧
    exec (.adcImm (y.extractLsb' 8 8)) (t.store .a (x.extractLsb' 8 8)) = .next u ∧
    u.load .a ++ t.load .a = x + y ∧ u.flags.carry = decide (x.toNat + y.toNat > 65535)

/-- R145: SUB of the low bytes and SBC of the high bytes subtract 16-bit numbers; the last carry is the borrow. -/
def Obligations.SubThenSbcSubtractsSixteenBits : Prop :=
  ∀ (x y : BitVec 16) (s : State), ∃ t u : State,
    exec (.subImm (y.extractLsb' 0 8)) (s.store .a (x.extractLsb' 0 8)) = .next t ∧
    exec (.sbcImm (y.extractLsb' 8 8)) (t.store .a (x.extractLsb' 8 8)) = .next u ∧
    u.load .a ++ t.load .a = x - y ∧ u.flags.carry = decide (x.toNat < y.toNat)

/-! ### One clock -/

/-- R61: what a rising edge does with each combination of inputs, `p` on the ports and `s` behind them. -/
def Obligations.ClockEdgePriority : Prop :=
  ∀ (p : Inputs) (s : State),
    step (s.present p) =
      if p.rst = true then .next { State.reset with inputs := s.inputs }
      else if p.cmdValid = false then .next s
      else if p.cmdKind = .execute then
        match decodeWord p.cmdWord with
        | .error _ => .next s
        | .ok i => exec i s
      else if p.cmdWord.extractLsb' 11 5 ≠ 0#5 then .next s
      else .next (hostStore ⟨Sel.ofCode (p.cmdWord.extractLsb' 8 3), p.cmdWord.extractLsb' 0 8⟩ s)

/-- An EXECUTE clock whose word decodes to `i` is `exec i` of the state with the next clock's inputs on the ports, whatever
`rd_sel` is; and the encoded word of every instruction, put on the port, runs that instruction. -/
def Obligations.StepRunsTheDecodedInstruction : Prop :=
  (∀ (w : Word) (i : Instr) (sel : BitVec 3) (s : State), decodeWord w = .ok i →
    step (s.present ⟨false, true, .execute, w, sel⟩) = exec i s) ∧
  (∀ (i : Instr) (s : State), step (s.withFetchWord 16 (encodeWord i).toNat) = exec i s)

/-- R140: a clock with `rst = 1` gives the reset values, whatever the state and whatever command is presented. -/
def Obligations.ResetBeatsEveryCommand : Prop :=
  ∀ (valid : Bool) (kind : CmdKind) (w : Word) (sel : BitVec 3) (s : State), ∃ t : State,
    step (s.present ⟨true, valid, kind, w, sel⟩) = .next t ∧
    (∀ r : Reg, t.load r = 0x00#8) ∧ t.flags = ⟨false, false, false, false⟩

/-- R142: reset leaves nothing of the earlier state: from a reset clock on, two runs under the same inputs are equal. -/
def Obligations.NothingSurvivesReset : Prop :=
  ∀ (valid : Bool) (kind : CmdKind) (w : Word) (sel : BitVec 3) (ps : List Inputs) (g g' : Regs) (f f' : Flags) (k : Nat),
    core.run (k + 1) (⟨g, f, ⟨true, valid, kind, w, sel⟩ :: ps⟩ : State) =
      core.run (k + 1) (⟨g', f', ⟨true, valid, kind, w, sel⟩ :: ps⟩ : State)

/-- R73: any number of consecutive idle clocks keep every register and flag, and raise no `cmd_invalid`. -/
def Obligations.IdleClocksHoldTheState : Prop :=
  (∀ (ps : List Inputs) (s : State), (∀ p ∈ ps, p.rst = false ∧ p.cmdValid = false) →
    core.run ps.length ({ s with inputs := ps ++ s.inputs } : State) = .next s) ∧
  (∀ p : Inputs, p.cmdValid = false → p.cmdInvalid = false)

/-- R72: the equation of `cmd_invalid`; a reserved word changes no register and no flag and leaves no record; the words of
instructions, the inert ones among them, never raise it. -/
def Obligations.ReservedWordsRaiseInvalidAndChangeNothing : Prop :=
  (∀ p : Inputs, p.cmdInvalid = true ↔ p.cmdValid = true ∧
    ((p.cmdKind = .execute ∧ ¬ ∃ i, decodeWord p.cmdWord = .ok i) ∨
     (p.cmdKind = .store ∧ p.cmdWord.extractLsb' 11 5 ≠ 0#5))) ∧
  (∀ (p : Inputs) (s : State), p.cmdInvalid = true → p.rst = false → step (s.present p) = .next s) ∧
  (∀ (p : Inputs) (s : State), (s.present p).outputs.cmdInvalid = p.cmdInvalid) ∧
  (∀ i : Instr, (Inputs.execute (encodeWord i)).cmdInvalid = false)

/-- R74: a STORE to a general register writes it and changes nothing else. -/
def Obligations.StoreToRegisterWritesItAlone : Prop :=
  ∀ (r : Reg) (v : Byte) (s : State), ∃ t : State,
    step (s.present (Inputs.store (r.code.setWidth 16 <<< 8 ||| v.setWidth 16))) = .next t ∧
    t.load r = v ∧ (∀ r' : Reg, r' = r ∨ t.load r' = s.load r') ∧ t.flags = s.flags

/-- R75: a STORE with selector 7 writes the flags through `decode` and no register; the read port then shows the byte with its
low nibble cleared. -/
def Obligations.StoreToFlagsDecodesTheByte : Prop :=
  ∀ (v : Byte) (s : State), ∃ t : State,
    step (s.present (Inputs.store (0x0700#16 ||| v.setWidth 16))) = .next t ∧
    t.flags = Flags.decode v ∧ (∀ r : Reg, t.load r = s.load r) ∧ t.readPort 7#3 = v &&& 0xF0#8

/-- R76, R77: `rd_data` in any clock, whatever command is presented: the state before the edge, by selector. -/
def Obligations.ReadPortShowsTheState : Prop :=
  ∀ (rst valid : Bool) (kind : CmdKind) (w : Word) (s : State),
    (∀ r : Reg, (s.present ⟨rst, valid, kind, w, r.code⟩).outputs.rdData = s.load r) ∧
    (s.present ⟨rst, valid, kind, w, 7#3⟩).outputs.rdData = s.flags.encode ∧
    (s.present ⟨rst, valid, kind, w, 7#3⟩).outputs.rdData &&& 0x0F#8 = 0x00#8 ∧
    Flags.decode (s.present ⟨rst, valid, kind, w, 7#3⟩).outputs.rdData = s.flags

/-! ### Runs -/

/-- R120: no state, no command and no instruction raises anything: a step neither faults nor refuses. -/
def Obligations.StepNeverFaultsOrRefuses : Prop :=
  ∀ s : State, (∀ r : Fault, step s ≠ .fault r) ∧ (∀ r : Refusal, step s ≠ .refused r)

/-- R144: no run gets stuck: `k` clocks from any state end in exactly one state, with `k` clocks of input used up. -/
def Obligations.RunsNeverGetStuck : Prop :=
  ∀ (k : Nat) (s : State), ∃ t : State, core.run k s = .next t ∧ t.inputs = s.inputs.drop k

/-- R62: commands take effect in the order they are presented, and the state after a run of some is the state the rest start
from. -/
def Obligations.CommandsTakeEffectInOrder : Prop :=
  ∀ (ps qs : List Inputs) (g : Regs) (f : Flags), ∃ t : State,
    core.run ps.length (⟨g, f, ps⟩ : State) = .next t ∧
    core.run (ps ++ qs).length (⟨g, f, ps ++ qs⟩ : State) = core.run qs.length (⟨t.regs, t.flags, qs⟩ : State)

/-- R52 and R145: idle clocks, reserved words and inert variants neither create nor remove a dependency: leaving all of them out
of a run gives the same final state. -/
def Obligations.ClocksThatDoNothingCanBeLeftOut : Prop :=
  ∀ (ps : List Inputs) (g : Regs) (f : Flags), ∃ t : State,
    core.run ps.length (⟨g, f, ps⟩ : State) = .next t ∧
    core.run (ps.filter fun p => !p.doesNothing).length (⟨g, f, ps.filter fun p => !p.doesNothing⟩ : State) = .next t

/-! ### Whole-machine rules and invariants -/

/-- R13, R22: in any clock, a register changes only by reset, by a STORE to it, or, A alone, by an implemented variant. -/
def Obligations.RegistersChangeOnlyAsAllowed : Prop :=
  ∀ (s : State) (r : Reg), ∃ t : State, step s = .next t ∧
    (t.load r = s.load r ∨ s.pins.rst = true ∨ s.pins.storesTo (.reg r) = true ∨
      (r = .a ∧ s.pins.executesImplemented = true))

/-- R19, R22: in any clock, the flags change only by reset, by a STORE to F, or by an implemented variant. -/
def Obligations.FlagsChangeOnlyAsAllowed : Prop :=
  ∀ s : State, ∃ t : State, step s = .next t ∧
    (t.flags = s.flags ∨ s.pins.rst = true ∨ s.pins.storesTo .flags = true ∨ s.pins.executesImplemented = true)

/-- Law V11 as an invariant: while the host presents no STORE to F, the flag byte is never 0xA0 or 0xD0; every step keeps it. -/
def Obligations.StepKeepsFlagByteReachable : Prop :=
  ∀ s : State, FlagByteReachable s → ∃ t : State, step s = .next t ∧ FlagByteReachable t

/-- The invariant above holds at reset. -/
def Obligations.ResetFlagByteReachable : Prop := FlagByteReachable State.reset

/-- R74: a register other than A that the host presents no STORE to keeps 0x00; every step keeps it. -/
def Obligations.StepKeepsUnstoredRegistersZero : Prop :=
  ∀ (r : Reg) (s : State), r ≠ .a → HoldsZeroUnstored r s → ∃ t : State, step s = .next t ∧ HoldsZeroUnstored r t

/-- The invariant above holds of every register at reset. -/
def Obligations.ResetUnstoredRegistersZero : Prop := ∀ r : Reg, HoldsZeroUnstored r State.reset

/-- U4 (the model's choice, log 4): the strict machine answers a next state for `k` clocks exactly when none of them applies a
reserved word, and then it goes where the machine goes; at the first such clock it stops with the word. -/
def Obligations.StrictRunStopsAtReservedWords : Prop :=
  (∀ (k : Nat) (s : State), (∃ t : State, strictCore.run k s = .next t) ↔ ∀ p ∈ s.inputs.take k, p.appliesReserved = false) ∧
  (∀ (k : Nat) (s t : State), strictCore.run k s = .next t → core.run k s = .next t) ∧
  (∀ s : State, s.pins.appliesReserved = true → strictStep s = .fault (.reservedWord s.pins.cmdKind s.pins.cmdWord))

/-! ### Notation -/

/-- R56: every line a host listing can hold reads back from its spelling (in the spelling of numbers this model writes, log 11). -/
def Obligations.HostLinesReadBack : Prop := ∀ l : HostLine, readLine (spellLine l) = some l

/-- R56: what the clock of each kind of line does. -/
def Obligations.HostLinesDoWhatTheySay : Prop :=
  ∀ s : State,
    (∀ i : Instr, step (s.present (lineInputs (.instr i))) = exec i s) ∧
    (∀ (r : Reg) (n : Byte), step (s.present (lineInputs (.store (.reg r) n))) = .next (s.store r n)) ∧
    (∀ n : Byte, step (s.present (lineInputs (.store .flags n))) = .next (s.setFlags (Flags.decode n))) ∧
    step (s.present (lineInputs .reset)) = .next { State.reset with inputs := s.inputs } ∧
    step (s.present (lineInputs .idle)) = .next s
end

