-- ==== Sys2Proof/Laws/Decode.lean ====
section
/-! SUPPORT. The small laws of the codec: codes, fields and the two views of an instruction. -/

namespace Sys2Proof

@[simp] theorem Reg.ofCode_code (r : Reg) : Reg.ofCode r.code = some r := by cases r <;> rfl

@[simp] theorem Family.ofCode_code (f : Family) : Family.ofCode f.code = some f := by cases f <;> rfl

@[simp] theorem Form.ofCode_code (f : Form) : Form.ofCode f.code = some f := by cases f <;> rfl

@[simp] theorem Sel.ofCode_code (x : Sel) : Sel.ofCode x.code = x := by
  cases x with
  | reg r => cases r <;> rfl
  | flags => rfl

/-- Only code 7 names no register (R25). -/
theorem Reg.ofCode_eq_some {c : BitVec 3} {r : Reg} : Reg.ofCode c = some r ↔ c = r.code := by
  revert c; cases r <;> decide

/-- Only code 7 names no family (R43). -/
theorem Family.ofCode_eq_some {c : BitVec 3} {f : Family} : Family.ofCode c = some f ↔ c = f.code := by
  revert c; cases f <;> decide

/-- Only code 3 names no form (R44). -/
theorem Form.ofCode_eq_some {c : BitVec 2} {f : Form} : Form.ofCode c = some f ↔ c = f.code := by
  revert c; cases f <;> decide

theorem Reg.ofCode_eq_none {c : BitVec 3} : Reg.ofCode c = none ↔ c = 7#3 := by revert c; decide

theorem Family.ofCode_eq_none {c : BitVec 3} : Family.ofCode c = none ↔ c = 7#3 := by revert c; decide

theorem Form.ofCode_eq_none {c : BitVec 2} : Form.ofCode c = none ↔ c = 3#2 := by revert c; decide

@[simp] theorem Instr.family_of (f : Family) (x : Operand) : (Instr.of f x).family = f := by
  cases f <;> cases x <;> rfl

@[simp] theorem Instr.operand_of (f : Family) (x : Operand) : (Instr.of f x).operand = x := by
  cases f <;> cases x <;> rfl

/-- The fields of a joined word are the fields it was joined from (R42). -/
@[simp] theorem splitWord_joinWord (f : WordFields) : splitWord (joinWord f) = f := by
  obtain ⟨fam, form, reg, imm⟩ := f
  simp only [splitWord, joinWord, WordFields.mk.injEq]
  refine ⟨?_, ?_, ?_, ?_⟩ <;>
    (apply BitVec.eq_of_toNat_eq
     simp only [BitVec.extractLsb'_toNat, BitVec.toNat_append, Nat.shiftRight_eq_div_pow]
     have h1 := fam.isLt; have h2 := form.isLt; have h3 := reg.isLt; have h4 := imm.isLt
     rw [← Nat.shiftLeft_add_eq_or_of_lt h2, ← Nat.shiftLeft_add_eq_or_of_lt h3, ← Nat.shiftLeft_add_eq_or_of_lt h4]
     simp only [Nat.shiftLeft_eq]
     omega)

/-- Joining a word's fields gives the word back (R42). -/
@[simp] theorem joinWord_splitWord (w : Word) : joinWord (splitWord w) = w := by
  apply BitVec.eq_of_getLsbD_eq
  intro i hi
  simp only [joinWord, splitWord, BitVec.getLsbD_append, BitVec.getLsbD_extractLsb']
  by_cases h8 : i < 8
  · simp [h8]
  · by_cases h11 : i < 11
    · have : i - 8 < 3 := by omega
      have h : 8 + (i - 8) = i := by omega
      simp [h8, this, h]
    · by_cases h13 : i < 13
      · have h3 : ¬ i - 8 < 3 := by omega
        have h2 : i - 8 - 3 < 2 := by omega
        have h : 11 + (i - 8 - 3) = i := by omega
        simp [h8, h3, h2, h]
      · have h3 : ¬ i - 8 < 3 := by omega
        have h2 : ¬ i - 8 - 3 < 2 := by omega
        have h1 : i - 8 - 3 - 2 < 3 := by omega
        have h : 13 + (i - 8 - 3 - 2) = i := by omega
        simp [h8, h3, h2, h1, h]

/-- Two words with the same four fields are the same word. -/
theorem splitWord_injective {w w' : Word} (h : splitWord w = splitWord w') : w = w' := by
  rw [← joinWord_splitWord w, h, joinWord_splitWord]

/-- Everything `decodeFields` accepts (R49). -/
theorem decodeFields_ok {f : WordFields} {i : Instr} (h : decodeFields f = .ok i) :
    (∃ fam r, i = .of fam (.reg r) ∧ f = ⟨fam.code, Form.register.code, r.code, 0⟩) ∨
    (∃ fam n, i = .of fam (.imm n) ∧ f = ⟨fam.code, Form.immediate.code, 0, n⟩) ∨
    (∃ fam, i = .of fam .ind ∧ f = ⟨fam.code, Form.indirect.code, 0, 0⟩) := by
  obtain ⟨cf, co, cr, ci⟩ := f
  simp only [decodeFields] at h
  split at h
  · cases h
  rename_i fam hfam
  rw [Family.ofCode_eq_some] at hfam
  split at h
  · cases h
  · rename_i hform
    rw [Form.ofCode_eq_some] at hform
    split at h
    · rename_i r hr
      rw [Reg.ofCode_eq_some] at hr
      split at h
      · rename_i hi
        cases h
        exact .inl ⟨fam, r, rfl, by rw [hfam, hform, hr, hi]; rfl⟩
      · cases h
    · cases h
  · rename_i hform
    rw [Form.ofCode_eq_some] at hform
    split at h
    · rename_i hr
      cases h
      exact .inr (.inl ⟨fam, ci, rfl, by rw [hfam, hform, hr]; rfl⟩)
    · cases h
  · rename_i hform
    rw [Form.ofCode_eq_some] at hform
    split at h
    · rename_i hri
      cases h
      exact .inr (.inr ⟨fam, rfl, by rw [hfam, hform, hri.1, hri.2]; rfl⟩)
    · cases h

end Sys2Proof
end

