-- ==== Sys2Proof/Laws/State.lean ====
section
/-! SUPPORT. One lemma per field per update of the state and of the register file, all true by `rfl`. -/

namespace Sys2Proof.Machine

open Sys2Proof

variable (s : State) (g : Regs) (r : Reg) (v : Byte) (f : Flags) (p : Inputs)

@[simp] theorem State.store_regs : (s.store r v).regs = s.regs.store r v := rfl
@[simp] theorem State.store_flags : (s.store r v).flags = s.flags := rfl
@[simp] theorem State.store_inputs : (s.store r v).inputs = s.inputs := rfl

@[simp] theorem State.setFlags_regs : (s.setFlags f).regs = s.regs := rfl
@[simp] theorem State.setFlags_flags : (s.setFlags f).flags = f := rfl
@[simp] theorem State.setFlags_inputs : (s.setFlags f).inputs = s.inputs := rfl

@[simp] theorem State.nextClock_regs : s.nextClock.regs = s.regs := rfl
@[simp] theorem State.nextClock_flags : s.nextClock.flags = s.flags := rfl
@[simp] theorem State.nextClock_inputs : s.nextClock.inputs = s.inputs.tail := rfl

@[simp] theorem State.present_regs : (s.present p).regs = s.regs := rfl
@[simp] theorem State.present_flags : (s.present p).flags = s.flags := rfl
@[simp] theorem State.present_inputs : (s.present p).inputs = p :: s.inputs := rfl
@[simp] theorem State.present_pins : (s.present p).pins = p := rfl
@[simp] theorem State.present_nextClock : (s.present p).nextClock = s := rfl

@[simp] theorem hostReset_regs : (hostReset s).regs = .zero := rfl
@[simp] theorem hostReset_flags : (hostReset s).flags = .clear := rfl
@[simp] theorem hostReset_inputs : (hostReset s).inputs = s.inputs := rfl

@[simp] theorem hostStore_reg : hostStore ⟨.reg r, v⟩ s = s.store r v := rfl
@[simp] theorem hostStore_flags : hostStore ⟨.flags, v⟩ s = s.setFlags (Flags.decode v) := rfl

theorem State.load_eq : s.load r = s.regs.load r := rfl

/-- R14, R74: a register reads back what was written to it. -/
@[simp] theorem Regs.load_store_same : (g.store r v).load r = v := by cases r <;> rfl

/-- R12: a write leaves every other register alone. -/
theorem Regs.load_store_other {r r' : Reg} (h : r' ≠ r) : (g.store r v).load r' = g.load r' := by
  cases r <;> cases r' <;> first | rfl | exact absurd rfl h

@[simp] theorem Regs.store_a : g.store .a v = { g with a := v } := rfl

/-- A register file is its seven registers and nothing more (R21). -/
theorem Regs.ext_load {g g' : Regs} (h : ∀ r, g.load r = g'.load r) : g = g' := by
  obtain ⟨a, b, c, d, e, h', l⟩ := g
  obtain ⟨a', b', c', d', e', h'', l'⟩ := g'
  have ha := h .a; have hb := h .b; have hc := h .c; have hd := h .d
  have he := h .e; have hh := h .h; have hl := h .l
  simp only [Regs.load] at ha hb hc hd he hh hl
  subst ha hb hc hd he hh hl
  rfl

end Sys2Proof.Machine
end

