-- ==== Sys2Proof/Laws/Ops.lean ====
section
/-! SUPPORT. What each shared operation can do, said once. -/

namespace Sys2Proof.Machine

open Sys2Proof

/-- All that the handler of the implemented families does (R66): it answers next, with A and F written. -/
theorem arith_eq (op : AluOp) (x : Byte) (s : State) :
    arith op x s =
      .next { s with
        regs := { s.regs with a := (alu op s.regs.a x s.flags.carry).res }
        flags := (alu op s.regs.a x s.flags.carry).flags } := rfl

/-- All that the handler of the inert variants does (R69, R70). -/
@[simp] theorem inert_eq (s : State) : inert s = .next s := rfl

/-- Zero is taken from the 8-bit result, in every operation (R65, law V4). -/
theorem alu_zero (op : AluOp) (a x : Byte) (cin : Bool) : (alu op a x cin).flags.zero = ((alu op a x cin).res == 0#8) := by
  cases op <;> rfl

/-- The half-carry is one formula for all four operations (R65, law V5). -/
theorem alu_halfCarry (op : AluOp) (a x : Byte) (cin : Bool) :
    (alu op a x cin).flags.halfCarry = decide (lowNibble a + lowNibble x + carryIn op cin > 0xF) := by
  cases op <;> rfl

/-- The ALU's low nibble is the byte modulo 16. -/
theorem lowNibble_eq (v : Byte) : lowNibble v = v.toNat % 16 := by
  simp only [lowNibble, BitVec.toNat_and]
  exact Nat.and_two_pow_sub_one_eq_mod v.toNat 4

/-- The addition steps in closed form (R65). -/
theorem addSteps_eq (a x : Byte) (k : Nat) (hk : k ≤ 1) :
    addSteps a x k = (BitVec.ofNat 8 (a.toNat + x.toNat + k), decide (a.toNat + x.toNat + k > 255)) := by
  have ha := a.isLt
  have hx := x.isLt
  simp only [addSteps, Prod.mk.injEq]
  constructor
  · apply BitVec.eq_of_toNat_eq
    simp only [BitVec.toNat_ofNat]
    omega
  · rw [← Bool.decide_or]
    exact decide_eq_decide.2 (by omega)

/-- The subtraction steps in closed form (R65). -/
theorem subSteps_eq (a x : Byte) (k : Nat) (hk : k ≤ 1) :
    subSteps a x k = (BitVec.ofInt 8 ((a.toNat : Int) - x.toNat - k), decide (a.toNat < x.toNat + k)) := by
  have ha := a.isLt
  have hx := x.isLt
  simp only [subSteps, Prod.mk.injEq]
  constructor
  · apply BitVec.eq_of_toInt_eq
    simp only [BitVec.toInt_ofInt, Int.bmod_def]
    omega
  · rw [← Bool.decide_or]
    exact decide_eq_decide.2 (by omega)

/-- ADC in closed form (R65, R83). -/
theorem alu_adc_eq (a x : Byte) (cin : Bool) :
    alu .adc a x cin =
      aluOut (BitVec.ofNat 8 (a.toNat + x.toNat + b2n cin), decide (a.toNat + x.toNat + b2n cin > 255)) false
        (decide (lowNibble a + lowNibble x + b2n cin > 0xF)) := by
  rw [← addSteps_eq a x (b2n cin) (by cases cin <;> decide)]
  rfl

/-- SBC in closed form (R65, R93). -/
theorem alu_sbc_eq (a x : Byte) (cin : Bool) :
    alu .sbc a x cin =
      aluOut (BitVec.ofInt 8 ((a.toNat : Int) - x.toNat - b2n cin), decide (a.toNat < x.toNat + b2n cin)) true
        (decide (lowNibble a + lowNibble x + b2n cin > 0xF)) := by
  rw [← subSteps_eq a x (b2n cin) (by cases cin <;> decide)]
  rfl

/-- ADD does not read the carry flag (R65, law V1). -/
theorem alu_add_eq (a x : Byte) (cin : Bool) : alu .add a x cin = alu .adc a x false := rfl

/-- SUB does not read the carry flag (R65, law V1). -/
theorem alu_sub_eq (a x : Byte) (cin : Bool) : alu .sub a x cin = alu .sbc a x false := rfl

/-- A byte wrapped from a sum is zero when the sum is a multiple of 256. -/
theorem ofNat_isZero (n : Nat) : (BitVec.ofNat 8 n == 0#8) = decide (n % 256 = 0) := by
  rw [Bool.eq_iff_iff]
  simp [← BitVec.toNat_inj]

/-- A byte wrapped from a difference is zero when the difference is a multiple of 256. -/
theorem ofInt_isZero (n : Int) : (BitVec.ofInt 8 n == 0#8) = decide (n % 256 = 0) := by
  rw [Bool.eq_iff_iff]
  simp only [beq_iff_eq, ← BitVec.toNat_inj, BitVec.toNat_ofInt, BitVec.toNat_ofNat, decide_eq_true_eq]
  omega

theorem carryIn_le (op : AluOp) (cin : Bool) : carryIn op cin ≤ 1 := by cases op <;> cases cin <;> decide

/-- All that `exec` can do (R66, R68): it always answers next; an inert variant changes nothing, an implemented one writes A and
the four flags. -/
theorem exec_cases (i : Instr) (s : State) :
    (i.implemented = false ∧ exec i s = .next s) ∨
    (i.implemented = true ∧ ∃ op x, exec i s =
      .next { s with
        regs := { s.regs with a := (alu op s.regs.a x s.flags.carry).res }
        flags := (alu op s.regs.a x s.flags.carry).flags }) := by
  cases i
  case addReg r => exact .inr ⟨rfl, .add, regOperand r s, rfl⟩
  case addImm n => exact .inr ⟨rfl, .add, n, rfl⟩
  case adcReg r => exact .inr ⟨rfl, .adc, regOperand r s, rfl⟩
  case adcImm n => exact .inr ⟨rfl, .adc, n, rfl⟩
  case subReg r => exact .inr ⟨rfl, .sub, regOperand r s, rfl⟩
  case subImm n => exact .inr ⟨rfl, .sub, n, rfl⟩
  case sbcReg r => exact .inr ⟨rfl, .sbc, regOperand r s, rfl⟩
  case sbcImm n => exact .inr ⟨rfl, .sbc, n, rfl⟩
  all_goals exact .inl ⟨rfl, rfl⟩

end Sys2Proof.Machine
end

