-- ==== Sys2Proof/Laws/PerInstr.lean ====
section
/-! SUPPORT. Families of statements about instructions as terms, one lemma for each constructor of `Instr`. -/

namespace Sys2Proof.Laws

open Sys2Proof

/-- A value of the type is its family and its operand (R40). -/
def Parts.Statement (i : Instr) : Prop := Instr.of i.family i.operand = i

/-- The fields an instruction is encoded in are those of a word of no reserved class (R47, R48). -/
def FieldsOk.Statement (i : Instr) : Prop := i.fields.wellFormed = true

theorem Parts.addReg (r : Reg) : Parts.Statement (.addReg r) := rfl
theorem Parts.addImm (n : Byte) : Parts.Statement (.addImm n) := rfl
theorem Parts.addInd : Parts.Statement .addInd := rfl
theorem Parts.adcReg (r : Reg) : Parts.Statement (.adcReg r) := rfl
theorem Parts.adcImm (n : Byte) : Parts.Statement (.adcImm n) := rfl
theorem Parts.adcInd : Parts.Statement .adcInd := rfl
theorem Parts.subReg (r : Reg) : Parts.Statement (.subReg r) := rfl
theorem Parts.subImm (n : Byte) : Parts.Statement (.subImm n) := rfl
theorem Parts.subInd : Parts.Statement .subInd := rfl
theorem Parts.sbcReg (r : Reg) : Parts.Statement (.sbcReg r) := rfl
theorem Parts.sbcImm (n : Byte) : Parts.Statement (.sbcImm n) := rfl
theorem Parts.sbcInd : Parts.Statement .sbcInd := rfl
theorem Parts.andReg (r : Reg) : Parts.Statement (.andReg r) := rfl
theorem Parts.andImm (n : Byte) : Parts.Statement (.andImm n) := rfl
theorem Parts.andInd : Parts.Statement .andInd := rfl
theorem Parts.orReg (r : Reg) : Parts.Statement (.orReg r) := rfl
theorem Parts.orImm (n : Byte) : Parts.Statement (.orImm n) := rfl
theorem Parts.orInd : Parts.Statement .orInd := rfl
theorem Parts.xorReg (r : Reg) : Parts.Statement (.xorReg r) := rfl
theorem Parts.xorImm (n : Byte) : Parts.Statement (.xorImm n) := rfl
theorem Parts.xorInd : Parts.Statement .xorInd := rfl

theorem FieldsOk.addReg (r : Reg) : FieldsOk.Statement (.addReg r) := by cases r <;> rfl
theorem FieldsOk.addImm (n : Byte) : FieldsOk.Statement (.addImm n) := rfl
theorem FieldsOk.addInd : FieldsOk.Statement .addInd := rfl
theorem FieldsOk.adcReg (r : Reg) : FieldsOk.Statement (.adcReg r) := by cases r <;> rfl
theorem FieldsOk.adcImm (n : Byte) : FieldsOk.Statement (.adcImm n) := rfl
theorem FieldsOk.adcInd : FieldsOk.Statement .adcInd := rfl
theorem FieldsOk.subReg (r : Reg) : FieldsOk.Statement (.subReg r) := by cases r <;> rfl
theorem FieldsOk.subImm (n : Byte) : FieldsOk.Statement (.subImm n) := rfl
theorem FieldsOk.subInd : FieldsOk.Statement .subInd := rfl
theorem FieldsOk.sbcReg (r : Reg) : FieldsOk.Statement (.sbcReg r) := by cases r <;> rfl
theorem FieldsOk.sbcImm (n : Byte) : FieldsOk.Statement (.sbcImm n) := rfl
theorem FieldsOk.sbcInd : FieldsOk.Statement .sbcInd := rfl
theorem FieldsOk.andReg (r : Reg) : FieldsOk.Statement (.andReg r) := by cases r <;> rfl
theorem FieldsOk.andImm (n : Byte) : FieldsOk.Statement (.andImm n) := rfl
theorem FieldsOk.andInd : FieldsOk.Statement .andInd := rfl
theorem FieldsOk.orReg (r : Reg) : FieldsOk.Statement (.orReg r) := by cases r <;> rfl
theorem FieldsOk.orImm (n : Byte) : FieldsOk.Statement (.orImm n) := rfl
theorem FieldsOk.orInd : FieldsOk.Statement .orInd := rfl
theorem FieldsOk.xorReg (r : Reg) : FieldsOk.Statement (.xorReg r) := by cases r <;> rfl
theorem FieldsOk.xorImm (n : Byte) : FieldsOk.Statement (.xorImm n) := rfl
theorem FieldsOk.xorInd : FieldsOk.Statement .xorInd := rfl

end Sys2Proof.Laws
end

