-- ==== Sys2Proof/Laws/Run.lean ====
section
/-! SUPPORT. What a clock edge and a step can do, said once, and how a run unfolds. -/

namespace Sys2Proof.Machine

open Sys2Proof

/-- All that a clock edge can do (R61). -/
theorem clockEdge_cases (p : Inputs) (s : State) :
    (p.rst = true ∧ clockEdge p s = .next (hostReset s)) ∨
    (p.rst = false ∧ (p.cmdValid = false ∨ p.cmdInvalid = true) ∧ clockEdge p s = .next s) ∨
    (p.rst = false ∧ p.cmdValid = true ∧ p.cmdKind = .execute ∧
      ∃ i, decodeWord p.cmdWord = .ok i ∧ clockEdge p s = exec i s) ∨
    (p.rst = false ∧ p.cmdValid = true ∧ p.cmdKind = .store ∧
      ∃ sw, decodeStoreWord p.cmdWord = .ok sw ∧ clockEdge p s = .next (hostStore sw s)) := by
  obtain ⟨rst, valid, kind, w, sel⟩ := p
  cases rst
  case true => exact .inl ⟨rfl, rfl⟩
  cases valid
  case false => exact .inr (.inl ⟨rfl, .inl rfl, rfl⟩)
  cases kind
  case execute =>
    cases h : decodeWord w with
    | ok i => exact .inr (.inr (.inl ⟨rfl, rfl, rfl, i, rfl, by simp [clockEdge, clockExecute, h]⟩))
    | error e =>
      exact .inr (.inl ⟨rfl, .inr (by simp [Inputs.cmdInvalid, reservedInstrWord, h]), by simp [clockEdge, clockExecute, h]⟩)
  case store =>
    cases h : decodeStoreWord w with
    | ok sw => exact .inr (.inr (.inr ⟨rfl, rfl, rfl, sw, rfl, by simp [clockEdge, clockStore, h]⟩))
    | error e =>
      exact .inr (.inl ⟨rfl, .inr (by simp [Inputs.cmdInvalid, reservedStoreWord, h]), by simp [clockEdge, clockStore, h]⟩)

/-- A clock edge always answers next, and takes nothing from what the host presents later (R78, R144). -/
theorem clockEdge_next (p : Inputs) (s : State) : ∃ t, clockEdge p s = .next t ∧ t.inputs = s.inputs := by
  rcases clockEdge_cases p s with ⟨_, e⟩ | ⟨_, _, e⟩ | ⟨_, _, _, i, _, e⟩ | ⟨_, _, _, ⟨sel, v⟩, _, e⟩
  · exact ⟨_, e, rfl⟩
  · exact ⟨_, e, rfl⟩
  · rcases exec_cases i s with ⟨_, e'⟩ | ⟨_, _, _, e'⟩
    · exact ⟨_, e.trans e', rfl⟩
    · exact ⟨_, e.trans e', rfl⟩
  · refine ⟨_, e, ?_⟩
    cases sel <;> rfl

/-- A step on a state whose first inputs are `p` is the clock edge under `p`. -/
theorem step_cons (g : Regs) (f : Flags) (p : Inputs) (ps : List Inputs) :
    step ⟨g, f, p :: ps⟩ = clockEdge p ⟨g, f, ps⟩ := rfl

theorem step_present (p : Inputs) (s : State) : step (s.present p) = clockEdge p s := rfl

/-- One more clock of a run, when it answers next. -/
theorem run_succ (M : Host.Core) (k : Nat) {s t : M.State} (h : M.step s = .next t) : M.run (k + 1) s = M.run k t := by
  simp [Host.Core.run, h]

end Sys2Proof.Machine
end

