-- ==== Sys2Proof/Tests/Slice0.lean ====
section
/-! SUPPORT. Small tests: expected values are those of spec/30 R51, spec/95 and the rules' own examples. Also a witness for
every hypothesis of the statements. -/

namespace Sys2Proof.Tests

open Sys2Proof Sys2Proof.Machine

/-! ### WellFormed refuses an ill-formed term for each check (R48, R55) -/

theorem test_fam_seven_refused : (WordFields.mk 7 0 0 0).famOk = false := by decide
theorem test_form_three_refused : (WordFields.mk 0 3 0 0).formOk = false := by decide
theorem test_reg_seven_refused : (WordFields.mk 0 0 7 0).regOk = false := by decide
theorem test_reg_in_immediate_refused : (WordFields.mk 0 1 1 0).regOk = false := by decide
theorem test_reg_in_indirect_refused : (WordFields.mk 6 2 1 0).regOk = false := by decide
theorem test_imm_in_register_refused : (WordFields.mk 0 0 0 1).immOk = false := by decide
theorem test_imm_in_indirect_refused : (WordFields.mk 6 2 0 1).immOk = false := by decide
theorem test_fields_wellFormed : (WordFields.mk 6 0 6 0).wellFormed = true ∧ (WordFields.mk 5 1 0 0xFF).wellFormed = true := by decide
theorem test_store_top_refused : (StoreFields.mk 1 0 0).wellFormed = false := by decide
theorem test_store_wellFormed : (StoreFields.mk 0 7 0xFF).wellFormed = true := by decide

/-! ### Decoding: one word for each constructor, written from R51's bit pattern `fam form reg imm` -/

theorem test_decode_addReg : decodeWord 0b000_00_110_00000000#16 = .ok (.addReg .l) := by decide
theorem test_decode_addImm : decodeWord 0b000_01_000_11100110#16 = .ok (.addImm 230) := by decide
theorem test_decode_addInd : decodeWord 0b000_10_000_00000000#16 = .ok .addInd := by decide
theorem test_decode_adcReg : decodeWord 0b001_00_100_00000000#16 = .ok (.adcReg .e) := by decide
theorem test_decode_adcImm : decodeWord 0b001_01_000_11100101#16 = .ok (.adcImm 229) := by decide
theorem test_decode_adcInd : decodeWord 0b001_10_000_00000000#16 = .ok .adcInd := by decide
theorem test_decode_subReg : decodeWord 0b010_00_101_00000000#16 = .ok (.subReg .h) := by decide
theorem test_decode_subImm : decodeWord 0b010_01_000_10000001#16 = .ok (.subImm 0x81) := by decide
theorem test_decode_subInd : decodeWord 0b010_10_000_00000000#16 = .ok .subInd := by decide
theorem test_decode_sbcReg : decodeWord 0b011_00_011_00000000#16 = .ok (.sbcReg .d) := by decide
theorem test_decode_sbcImm : decodeWord 0b011_01_000_00101010#16 = .ok (.sbcImm 0x2A) := by decide
theorem test_decode_sbcInd : decodeWord 0b011_10_000_00000000#16 = .ok .sbcInd := by decide
theorem test_decode_andReg : decodeWord 0b100_00_001_00000000#16 = .ok (.andReg .b) := by decide
theorem test_decode_andImm : decodeWord 0b100_01_000_00001111#16 = .ok (.andImm 0x0F) := by decide
theorem test_decode_andInd : decodeWord 0b100_10_000_00000000#16 = .ok .andInd := by decide
theorem test_decode_orReg : decodeWord 0b101_00_010_00000000#16 = .ok (.orReg .c) := by decide
theorem test_decode_orImm : decodeWord 0b101_01_000_11111111#16 = .ok (.orImm 0xFF) := by decide
theorem test_decode_orInd : decodeWord 0b101_10_000_00000000#16 = .ok .orInd := by decide
theorem test_decode_xorReg : decodeWord 0b110_00_000_00000000#16 = .ok (.xorReg .a) := by decide
theorem test_decode_xorImm : decodeWord 0b110_01_000_11111111#16 = .ok (.xorImm 0xFF) := by decide
theorem test_decode_xorInd : decodeWord 0b110_10_000_00000000#16 = .ok .xorInd := by decide

/-- Reserved words of spec/95 section 2.6. -/
theorem test_decode_reserved :
    decodeWord 0xFFFF#16 = .error .reservedFamily ∧ decodeWord 0xD800#16 = .error .reservedForm ∧
    decodeWord 0x0700#16 = .error .badRegisterForm ∧ decodeWord 0x0101#16 = .error .badRegisterForm ∧
    decodeWord 0x0900#16 = .error .badImmediateForm ∧ decodeWord 0x1001#16 = .error .badIndirectForm ∧
    decodeWord 0x1100#16 = .error .badIndirectForm := by decide

/-- Words of R55's examples. -/
theorem test_decode_store :
    decodeStoreWord 0x00F4#16 = .ok ⟨.reg .a, 244⟩ ∧ decodeStoreWord 0x0601#16 = .ok ⟨.reg .l, 1⟩ ∧
    decodeStoreWord 0x0710#16 = .ok ⟨.flags, 0x10⟩ ∧ decodeStoreWord 0x0800#16 = .error .reservedStoreWord := by decide

theorem test_decodeTableWord : decodeTableWord 16 0x4500 = some (.subReg .h) ∧ decodeTableWord 16 0xE000 = none := by decide

/-! ### One instruction on a small state -/

/-- Registers A and B, the flag byte, nothing presented. -/
def st (a b f : Byte) : State := ⟨{ Regs.zero with a := a, b := b }, Flags.decode f, []⟩

/-- A, B and the flag byte of a next state. -/
def abf : Host.Outcome State Fault Refusal → Option (Byte × Byte × Byte)
  | .next s => some (s.load .a, s.load .b, s.flags.encode)
  | .fault _ => none
  | .refused _ => none

/-- R81's example. -/
theorem test_addReg : abf (exec (.addReg .b) (st 0x3A 0xC6 0x50)) = some (0x00, 0xC6, 0xB0) := by decide
/-- S1. -/
theorem test_addImm : abf (exec (.addImm 230) (st 0xF4 0 0x10)) = some (0xDA, 0, 0x10) := by decide
/-- R82's example. -/
theorem test_addInd : abf (exec .addInd (st 0x12 0 0x50)) = some (0x12, 0, 0x50) := by decide
/-- spec/95 section 2.4: the accumulator as its own operand. -/
theorem test_addReg_self : abf (exec (.addReg .a) (st 0x80 0 0x00)) = some (0x00, 0, 0x90) := by decide
/-- P3, step 12. -/
theorem test_adcReg : abf (exec (.adcReg .b) (st 0xF0 0x3C 0x10)) = some (0x2D, 0x3C, 0x10) := by decide
/-- S3. -/
theorem test_adcImm : abf (exec (.adcImm 229) (st 0xF4 0 0x10)) = some (0xDA, 0, 0x10) := by decide
/-- R83: overflow in the second step only. -/
theorem test_adcImm_second_step : abf (exec (.adcImm 0) (st 0xFF 0 0x10)) = some (0x00, 0, 0xB0) := by decide
/-- R85's example. -/
theorem test_adcInd : abf (exec .adcInd (st 0xFF 0 0x10)) = some (0xFF, 0, 0x10) := by decide
/-- S4: the half-carry is not a borrow. -/
theorem test_subReg_self : abf (exec (.subReg .a) (st 0xFF 0 0x00)) = some (0x00, 0, 0xE0) := by decide
/-- P7, step 2. -/
theorem test_subReg : abf (exec (.subReg .b) (st 0x00 0xE6 0x00)) = some (0x1A, 0xE6, 0x50) := by decide
/-- S2. -/
theorem test_subImm : abf (exec (.subImm 230) (st 0x02 0 0xF0)) = some (0x1C, 0, 0x50) := by decide
/-- R90: half-carry with no nibble borrow. -/
theorem test_subImm_half : abf (exec (.subImm 1) (st 0x0F 0 0x00)) = some (0x0E, 0, 0x60) := by decide
/-- R92's example. -/
theorem test_subInd : abf (exec .subInd (st 0x12 0 0x00)) = some (0x12, 0, 0x00) := by decide
/-- R94's example, on B. -/
theorem test_sbcReg : abf (exec (.sbcReg .b) (st 0x3B 0x4F 0x00)) = some (0xEC, 0x4F, 0x70) := by decide
/-- R93: all four flags; a byte-wide `n + cin` would lose the borrow. -/
theorem test_sbcImm_all_flags : abf (exec (.sbcImm 0xFF) (st 0x00 0 0x10)) = some (0x00, 0, 0xF0) := by decide
/-- R93's example. -/
theorem test_sbcImm : abf (exec (.sbcImm 0x2A) (st 0x3B 0 0x10)) = some (0x10, 0, 0x60) := by decide
/-- R95's example. -/
theorem test_sbcInd : abf (exec .sbcInd (st 0x00 0 0x10)) = some (0x00, 0, 0x10) := by decide
/-- R100's example. -/
theorem test_andReg : abf (exec (.andReg .b) (st 0xF0 0x3C 0x10)) = some (0xF0, 0x3C, 0x10) := by decide
/-- R101: `AND #0` does not clear A. -/
theorem test_andImm : abf (exec (.andImm 0) (st 0xAA 0 0x10)) = some (0xAA, 0, 0x10) := by decide
theorem test_andInd : abf (exec .andInd (st 0xAA 0 0x10)) = some (0xAA, 0, 0x10) := by decide
/-- R103's example, on B. -/
theorem test_orReg : abf (exec (.orReg .b) (st 0x0F 0xF0 0x10)) = some (0x0F, 0xF0, 0x10) := by decide
/-- R104's example. -/
theorem test_orImm : abf (exec (.orImm 0xFF) (st 0x00 0 0x80)) = some (0x00, 0, 0x80) := by decide
theorem test_orInd : abf (exec .orInd (st 0x00 0 0x80)) = some (0x00, 0, 0x80) := by decide
/-- R106's example. -/
theorem test_xorReg : abf (exec (.xorReg .a) (st 0x5A 0 0x00)) = some (0x5A, 0, 0x00) := by decide
/-- R107's example. -/
theorem test_xorImm : abf (exec (.xorImm 0xFF) (st 0x5A 0 0x00)) = some (0x5A, 0, 0x00) := by decide
theorem test_xorInd : abf (exec .xorInd (st 0x5A 0 0x00)) = some (0x5A, 0, 0x00) := by decide

/-! ### One clock (spec/95 sections 2.7 and 2.8) -/

theorem test_store_register : abf (step ((st 0 0 0x10).present (.store 0x01E6))) = some (0, 0xE6, 0x10) := by decide
theorem test_store_flags : abf (step ((st 0xF4 0xE6 0).present (.store 0x07FF))) = some (0xF4, 0xE6, 0xF0) := by decide
theorem test_reserved_store_word : abf (step ((st 0xF4 0xE6 0x10).present (.store 0x80F4))) = some (0xF4, 0xE6, 0x10) := by decide
theorem test_reserved_instruction_word : abf (step ((st 0xF4 0xE6 0x10).present (.execute 0xE000))) = some (0xF4, 0xE6, 0x10) := by decide
theorem test_idle_ignores_word :
    abf (step ((st 0xF4 0 0x10).present ⟨false, false, .execute, 0xFFFF, 0⟩)) = some (0xF4, 0, 0x10) := by decide
theorem test_reset_beats_add : abf (step ((st 0x12 0xE6 0x50).present ⟨true, true, .execute, 0x0801, 0⟩)) = some (0, 0, 0) := by decide
theorem test_invalid_in_reset_clock : (Inputs.mk true true .execute 0xE000 0).cmdInvalid = true := by decide
theorem test_invalid_not_when_idle : (Inputs.mk false false .execute 0xFFFF 0).cmdInvalid = false := by decide
theorem test_read_port : (st 0xF4 0xE6 0xFF).readPort 1 = 0xE6 ∧ (st 0xF4 0xE6 0xFF).readPort 7 = 0xF0 := by decide
theorem test_withFetchWord : abf (step (State.reset.withFetchWord 16 0x2800)) = some (0, 0, 0x80) := by decide
theorem test_strict_stops :
    strictStep ((st 0 0 0).present (.execute 0x0101)) = .fault (.reservedWord .execute 0x0101) := by rfl

/-- The borrow-style alternative of HC_SUB_MODE gives S4 another half-carry. -/
theorem test_borrow_style_differs :
    halfCarrySub .addStyle 0xFF 0xFF 0 = true ∧ halfCarrySub .borrowStyle 0xFF 0xFF 0 = false := by decide

/-! ### Notation (R56) -/

theorem test_readLine_decimal : readLine ['A', 'D', 'D', ' ', '#', '2', '3', '0'] = some (.instr (.addImm 230)) := by decide
theorem test_readLine_hex : readLine ['A', 'D', 'D', ' ', '#', '0', 'x', 'E', '6'] = some (.instr (.addImm 230)) := by decide
theorem test_readLine_indirect : readLine ['A', 'D', 'C', ' ', '@'] = some (.instr .adcInd) := by decide
theorem test_readLine_store :
    readLine ['S', 'T', 'O', 'R', 'E', ' ', 'F', ',', ' ', '#', '0', 'x', '1', '0'] = some (.store .flags 0x10) := by decide
theorem test_readLine_no_nop : readLine ['N', 'O', 'P'] = none := by decide
theorem test_readLine_256_refused : readLine ['O', 'R', ' ', '#', '2', '5', '6'] = none := by decide
theorem test_readLine_F_operand_refused : readLine ['S', 'U', 'B', ' ', 'F'] = none := by decide
theorem test_spellLine : spellLine (.instr (.sbcImm 0x2A)) = ['S', 'B', 'C', ' ', '#', '0', 'x', '2', 'A'] := by decide

/-! ### Witnesses for the hypotheses of the statements -/

/-- InstructionWordsRoundTrip, the converse and the injectivity clause. -/
theorem witness_round_trip :
    decodeWord 0xD000#16 = .ok .xorInd ∧ encodeWord (.addReg .a) = encodeWord (.addReg .a) := by decide

/-- DecodingByFields: a word at a boundary of each clause, in the clauses' order. -/
theorem witness_fields_family : (0xE000#16 : Word).toNat / 8192 = 7 := by decide
theorem witness_fields_register :
    (0xC600#16 : Word).toNat / 8192 ≤ 6 ∧ (0xC600#16 : Word).toNat / 2048 % 4 = 0 ∧ (0xC600#16 : Word).toNat / 256 % 8 ≤ 6 ∧
    (0xC600#16 : Word).toNat % 256 = 0 := by decide
theorem witness_fields_bad_register :
    (0xC700#16 : Word).toNat / 8192 ≤ 6 ∧ (0xC700#16 : Word).toNat / 2048 % 4 = 0 ∧
    ¬((0xC700#16 : Word).toNat / 256 % 8 ≤ 6 ∧ (0xC700#16 : Word).toNat % 256 = 0) := by decide
theorem witness_fields_immediate :
    (0xC8FF#16 : Word).toNat / 8192 ≤ 6 ∧ (0xC8FF#16 : Word).toNat / 2048 % 4 = 1 ∧ (0xC8FF#16 : Word).toNat / 256 % 8 = 0 := by decide
theorem witness_fields_bad_immediate :
    (0xC900#16 : Word).toNat / 8192 ≤ 6 ∧ (0xC900#16 : Word).toNat / 2048 % 4 = 1 ∧ (0xC900#16 : Word).toNat / 256 % 8 ≠ 0 := by decide
theorem witness_fields_indirect :
    (0xD000#16 : Word).toNat / 8192 ≤ 6 ∧ (0xD000#16 : Word).toNat / 2048 % 4 = 2 ∧ (0xD000#16 : Word).toNat / 256 % 8 = 0 ∧
    (0xD000#16 : Word).toNat % 256 = 0 := by decide
theorem witness_fields_bad_indirect :
    (0xD001#16 : Word).toNat / 8192 ≤ 6 ∧ (0xD001#16 : Word).toNat / 2048 % 4 = 2 ∧
    ¬((0xD001#16 : Word).toNat / 256 % 8 = 0 ∧ (0xD001#16 : Word).toNat % 256 = 0) := by decide
theorem witness_fields_form : (0xDFFF#16 : Word).toNat / 8192 ≤ 6 ∧ (0xDFFF#16 : Word).toNat / 2048 % 4 = 3 := by decide

/-- StoreWordsRoundTrip, the converse clause. -/
theorem witness_store_round_trip : decodeStoreWord 0x07FF#16 = .ok ⟨.flags, 0xFF⟩ := by decide

/-- OnlyAdcAndSbcReadCarry: each premise of the two inner clauses, with flags that differ. -/
theorem witness_reads_carry :
    (Flags.decode 0x10).carry = (Flags.decode 0xF0).carry ∧ Instr.family (.addReg .b) = .add ∧ Instr.family (.subImm 1) = .sub ∧
    Instr.implemented .adcInd = false ∧ Instr.implemented (.sbcReg .c) = true := by decide

/-- StepRunsTheDecodedInstruction, the first clause. -/
theorem witness_step_runs : decodeWord 0x2100#16 = .ok (.adcReg .b) := by decide

/-- IdleClocksHoldTheState: two idle clocks with a word on the port, and a clock with `cmd_valid` = 0. -/
theorem witness_idle :
    ∀ p ∈ [Inputs.idle, ⟨false, false, .store, 0xFFFF, 7⟩], p.rst = false ∧ p.cmdValid = false := by decide

/-- ReservedWordsRaiseInvalidAndChangeNothing: a reserved word of each kind, no reset. -/
theorem witness_reserved :
    (Inputs.execute 0xFFFF).cmdInvalid = true ∧ (Inputs.execute 0xFFFF).rst = false ∧
    (Inputs.store 0x0800).cmdInvalid = true ∧ (Inputs.store 0x0800).rst = false := by decide

/-- StepKeepsFlagByteReachable: a state with flags set and a command presented. -/
theorem witness_flag_byte_reachable : FlagByteReachable ((st 0xFF 0x01 0x70).present (.execute 0x0100)) := by
  refine ⟨by decide, by decide, ?_⟩
  show ∀ p ∈ [Inputs.execute 0x0100], _
  decide

/-- StepKeepsUnstoredRegistersZero: B, with a STORE to C presented. -/
theorem witness_holds_zero : (Reg.b ≠ .a) ∧ HoldsZeroUnstored .b ((st 0xFF 0 0x70).present (.store 0x02AA)) := by
  refine ⟨by decide, by decide, ?_⟩
  show ∀ p ∈ [Inputs.store 0x02AA], _
  decide

/-- StrictRunStopsAtReservedWords: a strict run of one clock, and a state whose clock applies a reserved word. -/
theorem witness_strict :
    strictCore.run 1 ((st 1 2 0).present (.execute 0x0100)) = .next ⟨{ Regs.zero with a := 3, b := 2 }, Flags.clear, []⟩ ∧
    ((st 0 0 0).present (.execute 0xE000)).pins.appliesReserved = true := by
  exact ⟨rfl, by decide⟩

/-- StrictRunStopsAtReservedWords, the right side of the equivalence: two clocks that apply no reserved word. -/
theorem witness_strict_clean :
    ∀ p ∈ [Inputs.execute 0x0100, ⟨true, true, .execute, 0xE000, 0⟩].take 2, p.appliesReserved = false := by decide

end Sys2Proof.Tests
end

/-! The register file, the flag byte and the codes: the laws the statements of spec/10 rest on, and those statements. -/

namespace Sys2Proof.Machine

open Sys2Proof

/-! ### Registers -/

/-- R23: every register of the reset register file holds zero. -/
@[simp] theorem Regs.load_zero (r : Reg) : Regs.zero.load r = 0#8 := by cases r <;> rfl

@[simp] theorem State.load_store_same (s : State) (r : Reg) (v : Byte) : (s.store r v).load r = v :=
  s.regs.load_store_same r v

/-- R12 on a state. -/
theorem State.load_store_other {r r' : Reg} (h : r' ≠ r) (s : State) (v : Byte) : (s.store r v).load r' = s.load r' :=
  s.regs.load_store_other v h

@[simp] theorem State.load_setFlags (s : State) (f : Flags) (r : Reg) : (s.setFlags f).load r = s.load r := rfl

@[simp] theorem State.load_nextClock (s : State) (r : Reg) : s.nextClock.load r = s.load r := rfl

/-- Settles O1: the fields of the reset state, register by register. -/
theorem resetStateIsAllZero : Obligations.ResetStateIsAllZero :=
  ⟨Regs.load_zero, rfl, rfl⟩

/-- Settles O3 by the read-after-write laws of the register file. -/
theorem registersAreIndependent : Obligations.RegistersAreIndependent := by
  intro s r v
  refine ⟨s.load_store_same r v, fun r' => ?_, s.store_flags r v⟩
  by_cases h : r' = r
  · exact .inl h
  · exact .inr (State.load_store_other h s v)

/-! ### The flag byte -/

/-- R16: the weight of each flag in the byte. -/
theorem Flags.encode_toNat (f : Flags) :
    f.encode.toNat = 128 * b2n f.zero + 64 * b2n f.subtraction + 32 * b2n f.halfCarry + 16 * b2n f.carry := by
  obtain ⟨z, n, h, c⟩ := f
  revert z n h c
  decide

/-- R18: the byte holds all four flags. -/
@[simp] theorem Flags.decode_encode (f : Flags) : Flags.decode f.encode = f := by
  obtain ⟨z, n, h, c⟩ := f
  revert z n h c
  decide

/-- R18: the other way round only the low nibble is lost. -/
@[simp] theorem Flags.encode_decode (b : Byte) : (Flags.decode b).encode = b &&& 0xF0#8 := by
  apply BitVec.eq_of_getLsbD_eq
  intro i hi
  simp only [Flags.encode, Flags.decode, BitVec.getLsbD_append, BitVec.getLsbD_and]
  interval_cases i <;> simp

/-- Settles O2: `decode` reads bits by definition, the rest are the laws above. -/
theorem flagByteEncodesAndDecodes : Obligations.FlagByteEncodesAndDecodes :=
  ⟨Flags.encode_toNat, fun _ => rfl, Flags.decode_encode, Flags.encode_decode⟩

/-! ### Codes -/

/-- R43, row "engine": the implemented families are those with the four lowest codes. -/
theorem Family.implemented_iff (f : Family) : f.implemented = true ↔ f.code.toNat ≤ 3 := by
  cases f <;> decide

/-- Settles O4: each table of codes as written, and the laws by which it reads back. -/
theorem registerFamilyAndFormCodes : Obligations.RegisterFamilyAndFormCodes :=
  ⟨⟨rfl, rfl, rfl, rfl, rfl, rfl, rfl⟩, fun r => ⟨Reg.ofCode_code r, Sel.ofCode_code (.reg r)⟩, Reg.ofCode_eq_none.2 rfl, rfl,
    ⟨rfl, rfl, rfl, rfl, rfl, rfl, rfl⟩, Family.ofCode_code, Family.ofCode_eq_none.2 rfl, Family.implemented_iff,
    ⟨rfl, rfl, rfl⟩, Form.ofCode_code, Form.ofCode_eq_none.2 rfl⟩

/-! ### What an instruction reads of the flags (R19) -/

/-- R69, R70: an inert variant changes nothing. -/
theorem exec_of_inert {i : Instr} (h : i.implemented = false) (s : State) : exec i s = .next s := by
  rcases exec_cases i s with ⟨_, e⟩ | ⟨h', _⟩
  · exact e
  · simp [h] at h'

/-- R66: an implemented variant is the shared handler, at an operation and an operand that the flags have no part in; ADD and
SUB give it an operation that takes no carry-in. -/
theorem exec_eq_arith {i : Instr} (h : i.implemented = true) (g : Regs) :
    ∃ op x, (∀ f ps, exec i ⟨g, f, ps⟩ = arith op x ⟨g, f, ps⟩) ∧
      (i.family = .add ∨ i.family = .sub → ∀ cin, carryIn op cin = 0) := by
  cases i
  case addReg r => exact ⟨.add, g.load r, fun _ _ => rfl, fun _ _ => rfl⟩
  case addImm n => exact ⟨.add, n, fun _ _ => rfl, fun _ _ => rfl⟩
  case subReg r => exact ⟨.sub, g.load r, fun _ _ => rfl, fun _ _ => rfl⟩
  case subImm n => exact ⟨.sub, n, fun _ _ => rfl, fun _ _ => rfl⟩
  case adcReg r => exact ⟨.adc, g.load r, fun _ _ => rfl, fun hf => by simp [Instr.family] at hf⟩
  case adcImm n => exact ⟨.adc, n, fun _ _ => rfl, fun hf => by simp [Instr.family] at hf⟩
  case sbcReg r => exact ⟨.sbc, g.load r, fun _ _ => rfl, fun hf => by simp [Instr.family] at hf⟩
  case sbcImm n => exact ⟨.sbc, n, fun _ _ => rfl, fun hf => by simp [Instr.family] at hf⟩
  all_goals exact absurd h Bool.false_ne_true

/-- R65: the ALU reads the carry through `k` alone. -/
theorem alu_congr_carryIn {op : AluOp} {cin cin' : Bool} (h : carryIn op cin = carryIn op cin') (a x : Byte) :
    alu op a x cin = alu op a x cin' := by
  simp only [alu, h]

/-- Settles O28: an inert variant answers its own state, an implemented one what the ALU answers, which sees the flags as the
carry-in alone. -/
theorem onlyAdcAndSbcReadCarry : Obligations.OnlyAdcAndSbcReadCarry := by
  intro i g f f' ps
  cases h : i.implemented with
  | false => exact ⟨_, _, exec_of_inert h _, exec_of_inert h _, fun _ => ⟨rfl, by simp⟩, fun _ => ⟨rfl, rfl⟩⟩
  | true =>
    obtain ⟨op, x, hexec, hk⟩ := exec_eq_arith h g
    refine ⟨_, _, (hexec f ps).trans (arith_eq ..), (hexec f' ps).trans (arith_eq ..), fun hread => ?_, by simp⟩
    have hcarry : carryIn op f.carry = carryIn op f'.carry := by
      rcases hread with hc | hadd | hsub | hinert
      · rw [hc]
      · rw [hk (.inl hadd), hk (.inl hadd)]
      · rw [hk (.inr hsub), hk (.inr hsub)]
      · cases hinert
    simp [alu_congr_carryIn hcarry]

/-! ### What a clock can change (R22) -/

theorem Inputs.storesTo_of_decode {p : Inputs} {sw : StoreWord} (hrst : p.rst = false) (hvalid : p.cmdValid = true)
    (hkind : p.cmdKind = .store) (h : decodeStoreWord p.cmdWord = .ok sw) : p.storesTo sw.sel = true := by
  simp [Inputs.storesTo, hrst, hvalid, hkind, h]

theorem Inputs.executesImplemented_of_decode {p : Inputs} {i : Instr} (hrst : p.rst = false) (hvalid : p.cmdValid = true)
    (hkind : p.cmdKind = .execute) (h : decodeWord p.cmdWord = .ok i) (hi : i.implemented = true) :
    p.executesImplemented = true := by
  simp [Inputs.executesImplemented, hrst, hvalid, hkind, h, hi]

/-- All that a clock can do to the registers and the flags, in the terms of the whole-machine statements (R13, R19, R22): nothing,
a reset, a STORE, or the work of an implemented variant on A and F. -/
theorem step_effect (s : State) : ∃ t, step s = .next t ∧
    (t = s.nextClock ∨ (s.pins.rst = true ∧ t = hostReset s.nextClock) ∨
      (∃ sw : StoreWord, s.pins.storesTo sw.sel = true ∧ t = hostStore sw s.nextClock) ∨
      (s.pins.executesImplemented = true ∧ ∃ v f, t = (s.nextClock.store .a v).setFlags f)) := by
  rcases clockEdge_cases s.pins s.nextClock with
    ⟨hrst, e⟩ | ⟨_, _, e⟩ | ⟨hrst, hvalid, hkind, i, hi, e⟩ | ⟨hrst, hvalid, hkind, sw, hsw, e⟩
  · exact ⟨_, e, .inr (.inl ⟨hrst, rfl⟩)⟩
  · exact ⟨_, e, .inl rfl⟩
  · rcases exec_cases i s.nextClock with ⟨_, e'⟩ | ⟨himpl, _, _, e'⟩
    · exact ⟨_, e.trans e', .inl rfl⟩
    · exact ⟨_, e.trans e',
        .inr (.inr (.inr ⟨Inputs.executesImplemented_of_decode hrst hvalid hkind hi himpl, _, _, rfl⟩))⟩
  · exact ⟨_, e, .inr (.inr (.inl ⟨sw, Inputs.storesTo_of_decode hrst hvalid hkind hsw, rfl⟩))⟩

/-- R74, R75: a STORE that does not go to a register leaves it alone. -/
theorem load_hostStore_other {sw : StoreWord} {r : Reg} (h : sw.sel ≠ .reg r) (s : State) :
    (hostStore sw s).load r = s.load r := by
  obtain ⟨sel, v⟩ := sw
  cases sel with
  | reg r' =>
    have hr : r ≠ r' := fun hr => h (congrArg Sel.reg hr.symm)
    exact State.load_store_other hr s v
  | flags => rfl

/-- R74: a STORE that does not go to F leaves the flags alone. -/
theorem flags_hostStore_other {sw : StoreWord} (h : sw.sel ≠ .flags) (s : State) : (hostStore sw s).flags = s.flags := by
  obtain ⟨sel, v⟩ := sw
  cases sel with
  | reg r => rfl
  | flags => exact absurd rfl h

/-- Settles O45: of the effects a clock can have, only those named reach the register. -/
theorem registersChangeOnlyAsAllowed : Obligations.RegistersChangeOnlyAsAllowed := by
  intro s r
  obtain ⟨t, hstep, heffect⟩ := step_effect s
  refine ⟨t, hstep, ?_⟩
  rcases heffect with rfl | ⟨hrst, _⟩ | ⟨sw, hsw, rfl⟩ | ⟨himpl, v, f, rfl⟩
  · exact .inl rfl
  · exact .inr (.inl hrst)
  · by_cases hsel : sw.sel = .reg r
    · exact .inr (.inr (.inl (hsel ▸ hsw)))
    · exact .inl (load_hostStore_other hsel s.nextClock)
  · by_cases hr : r = .a
    · exact .inr (.inr (.inr ⟨hr, himpl⟩))
    · exact .inl (State.load_store_other hr s.nextClock v)

/-- Settles O46: of the effects a clock can have, only those named reach the flags. -/
theorem flagsChangeOnlyAsAllowed : Obligations.FlagsChangeOnlyAsAllowed := by
  intro s
  obtain ⟨t, hstep, heffect⟩ := step_effect s
  refine ⟨t, hstep, ?_⟩
  rcases heffect with rfl | ⟨hrst, _⟩ | ⟨sw, hsw, rfl⟩ | ⟨himpl, v, f, rfl⟩
  · exact .inl rfl
  · exact .inr (.inl hrst)
  · by_cases hsel : sw.sel = .flags
    · exact .inr (.inr (.inl (hsel ▸ hsw)))
    · exact .inl (flags_hostStore_other hsel s.nextClock)
  · exact .inr (.inr (.inr himpl))

end Sys2Proof.Machine

/-! Instruction words (spec/30): decoding and encoding as one relation between words and instructions, and the opcode map's
rows as conditions on a word's fields. -/

namespace Sys2Proof

/-! ### Instructions by family and operand -/

/-- A value of the type is its family and its operand (R40). -/
theorem Instr.of_family_operand (i : Instr) : Instr.of i.family i.operand = i := by cases i <;> rfl

@[simp] theorem Instr.form_of (f : Family) (x : Operand) : (Instr.of f x).form = x.form := by
  simp only [Instr.form, Instr.operand_of]

@[simp] theorem Instr.fields_of_reg (f : Family) (r : Reg) :
    (Instr.of f (.reg r)).fields = ⟨f.code, Form.register.code, r.code, 0⟩ := by cases f <;> rfl

@[simp] theorem Instr.fields_of_imm (f : Family) (n : Byte) :
    (Instr.of f (.imm n)).fields = ⟨f.code, Form.immediate.code, 0, n⟩ := by cases f <;> rfl

@[simp] theorem Instr.fields_of_ind (f : Family) :
    (Instr.of f .ind).fields = ⟨f.code, Form.indirect.code, 0, 0⟩ := by cases f <;> rfl

/-! ### Codes -/

/-- R43: every code but 7 is a family's. -/
theorem Family.exists_code {c : BitVec 3} (h : c ≠ 7#3) : ∃ f : Family, c = f.code := by
  cases hc : Family.ofCode c with
  | some f => exact ⟨f, Family.ofCode_eq_some.1 hc⟩
  | none => exact absurd (Family.ofCode_eq_none.1 hc) h

/-- R25: every code but 7 is a register's. -/
theorem Reg.exists_code {c : BitVec 3} (h : c ≠ 7#3) : ∃ r : Reg, c = r.code := by
  cases hc : Reg.ofCode c with
  | some r => exact ⟨r, Reg.ofCode_eq_some.1 hc⟩
  | none => exact absurd (Reg.ofCode_eq_none.1 hc) h

theorem Reg.code_ne_seven (r : Reg) : r.code ≠ 7#3 := by cases r <;> decide

/-! ### What `decodeFields` answers, by the branches of R49 -/

theorem decodeFields_reservedFamily (co : BitVec 2) (cr : BitVec 3) (ci : Byte) :
    decodeFields ⟨7#3, co, cr, ci⟩ = .error .reservedFamily := by
  simp [decodeFields, Family.ofCode_eq_none.2 rfl]

theorem decodeFields_reservedForm (f : Family) (cr : BitVec 3) (ci : Byte) :
    decodeFields ⟨f.code, 3#2, cr, ci⟩ = .error .reservedForm := by
  simp [decodeFields, Form.ofCode_eq_none.2 rfl]

theorem decodeFields_register (f : Family) (r : Reg) :
    decodeFields ⟨f.code, Form.register.code, r.code, 0⟩ = .ok (.of f (.reg r)) := by
  simp [decodeFields]

theorem decodeFields_badRegister (f : Family) {cr : BitVec 3} {ci : Byte} (h : cr = 7#3 ∨ ci ≠ 0#8) :
    decodeFields ⟨f.code, Form.register.code, cr, ci⟩ = .error .badRegisterForm := by
  cases hr : Reg.ofCode cr with
  | none => simp [decodeFields, hr]
  | some r =>
    have hcr := Reg.ofCode_eq_some.1 hr
    have hci : ci ≠ 0#8 := h.resolve_left (hcr ▸ r.code_ne_seven)
    simp [decodeFields, hr, hci]

theorem decodeFields_immediate (f : Family) (n : Byte) :
    decodeFields ⟨f.code, Form.immediate.code, 0, n⟩ = .ok (.of f (.imm n)) := by
  simp [decodeFields]

theorem decodeFields_badImmediate (f : Family) {cr : BitVec 3} (ci : Byte) (h : cr ≠ 0#3) :
    decodeFields ⟨f.code, Form.immediate.code, cr, ci⟩ = .error .badImmediateForm := by
  simp [decodeFields, h]

theorem decodeFields_indirect (f : Family) :
    decodeFields ⟨f.code, Form.indirect.code, 0, 0⟩ = .ok (.of f .ind) := by
  simp [decodeFields]

theorem decodeFields_badIndirect (f : Family) {cr : BitVec 3} {ci : Byte} (h : ¬(cr = 0#3 ∧ ci = 0#8)) :
    decodeFields ⟨f.code, Form.indirect.code, cr, ci⟩ = .error .badIndirectForm := by
  simp only [decodeFields, Family.ofCode_code, Form.ofCode_code, if_neg h]

/-! ### Decoding is the inverse of encoding (R50) -/

/-- The fields that decode to an instruction are the fields it is encoded in, and no others. -/
theorem decodeFields_eq_ok {f : WordFields} {i : Instr} : decodeFields f = .ok i ↔ i.fields = f := by
  constructor
  · intro h
    rcases decodeFields_ok h with ⟨fam, r, rfl, rfl⟩ | ⟨fam, n, rfl, rfl⟩ | ⟨fam, rfl, rfl⟩
    · exact Instr.fields_of_reg fam r
    · exact Instr.fields_of_imm fam n
    · exact Instr.fields_of_ind fam
  · rintro rfl
    rw [← i.of_family_operand]
    cases i.operand with
    | reg r => rw [Instr.fields_of_reg, decodeFields_register]
    | imm n => rw [Instr.fields_of_imm, decodeFields_immediate]
    | ind => rw [Instr.fields_of_ind, decodeFields_indirect]

/-- R50 in one line: a word decodes to an instruction exactly when it is that instruction's word. -/
theorem decodeWord_eq_ok {w : Word} {i : Instr} : decodeWord w = .ok i ↔ encodeWord i = w := by
  rw [decodeWord, decodeFields_eq_ok]
  constructor
  · intro h
    rw [encodeWord, h, joinWord_splitWord]
  · rintro rfl
    exact (splitWord_joinWord i.fields).symm

theorem decodeWord_encodeWord (i : Instr) : decodeWord (encodeWord i) = .ok i := decodeWord_eq_ok.2 rfl

theorem encodeWord_injective : Function.Injective encodeWord := fun _ _ h =>
  Except.ok.inj ((decodeWord_encodeWord _).symm.trans (decodeWord_eq_ok.2 h.symm))

/-- R42, R50: the word as the formula of shifts. -/
theorem joinWord_toNat (f : WordFields) :
    (joinWord f).toNat = f.fam.toNat <<< 13 ||| f.form.toNat <<< 11 ||| f.reg.toNat <<< 8 ||| f.imm.toNat := by
  simp only [joinWord, BitVec.toNat_append, Nat.shiftLeft_or_distrib, ← Nat.shiftLeft_add]

/-! ### The list of all instructions -/

def Family.all : List Family := [.add, .adc, .sub, .sbc, .and, .or, .xor]

def Reg.all : List Reg := [.a, .b, .c, .d, .e, .h, .l]

def Byte.all : List Byte := (List.finRange 256).map BitVec.ofFin

/-- The 7 + 256 + 1 operands of a family. -/
def Operand.all : List Operand := Reg.all.map .reg ++ (Byte.all.map .imm ++ [.ind])

/-- The 7 * 264 values of the instruction type. -/
def Instr.all : List Instr := (Family.all ×ˢ Operand.all).map fun p => .of p.1 p.2

theorem Family.mem_all (f : Family) : f ∈ Family.all := by cases f <;> decide

theorem Reg.mem_all (r : Reg) : r ∈ Reg.all := by cases r <;> decide

theorem Byte.mem_all (n : Byte) : n ∈ Byte.all :=
  List.mem_map.2 ⟨n.toFin, List.mem_finRange _, rfl⟩

theorem Operand.mem_all (x : Operand) : x ∈ Operand.all := by
  cases x with
  | reg r => simp [Operand.all, Reg.mem_all]
  | imm n => simp [Operand.all, Byte.mem_all]
  | ind => simp [Operand.all]

theorem Instr.mem_all (i : Instr) : i ∈ Instr.all :=
  List.mem_map.2 ⟨(i.family, i.operand), List.mem_product.2 ⟨i.family.mem_all, i.operand.mem_all⟩, i.of_family_operand⟩

theorem Byte.nodup_all : Byte.all.Nodup :=
  (List.nodup_finRange 256).map fun _ _ h => congrArg BitVec.toFin h

theorem Operand.nodup_all : Operand.all.Nodup := by
  have hreg : (Reg.all.map Operand.reg).Nodup := by decide
  have himm : (Byte.all.map Operand.imm).Nodup := Byte.nodup_all.map fun _ _ h => Operand.imm.inj h
  refine hreg.append (himm.append (List.nodup_singleton _) ?_) ?_
  · simp [List.Disjoint]
  · simp [List.Disjoint]

theorem Instr.nodup_all : Instr.all.Nodup := by
  have hfam : Family.all.Nodup := by decide
  refine (hfam.product Operand.nodup_all).map fun p q h => Prod.ext ?_ ?_
  · simpa using congrArg Instr.family h
  · simpa using congrArg Instr.operand h

theorem Instr.length_all : Instr.all.length = 1848 := by
  have hops : Operand.all.length = 264 := by simp [Operand.all, Reg.all, Byte.all]
  rw [Instr.all, List.length_map, List.length_product, hops]
  rfl

/-- Settles O5: `decodeWord` and `encodeWord` are one relation read both ways, and the words are those of the listed
instructions. -/
theorem instructionWordsRoundTrip : Obligations.InstructionWordsRoundTrip := by
  refine ⟨fun f r => ?_, fun f n => ?_, fun f => ?_,
    decodeWord_encodeWord, fun _ _ => decodeWord_eq_ok.1, fun _ _ h => encodeWord_injective h,
    Instr.all.map encodeWord, ?_, Instr.nodup_all.map encodeWord_injective, fun w => ?_⟩
  · simp [encodeWord, joinWord_toNat, Form.code]
  · simp [encodeWord, joinWord_toNat, Form.code]
  · simp [encodeWord, joinWord_toNat, Form.code]
  · rw [List.length_map, Instr.length_all]
  · simp [decodeWord_eq_ok, Instr.mem_all]

/-! ### The fields of a word as numbers -/

theorem splitWord_fam_toNat (w : Word) : (splitWord w).fam.toNat = w.toNat / 8192 := by
  have := w.isLt
  simp only [splitWord, BitVec.extractLsb'_toNat, Nat.shiftRight_eq_div_pow]
  omega

theorem splitWord_form_toNat (w : Word) : (splitWord w).form.toNat = w.toNat / 2048 % 4 := by
  simp [splitWord, BitVec.extractLsb'_toNat, Nat.shiftRight_eq_div_pow]

theorem splitWord_reg_toNat (w : Word) : (splitWord w).reg.toNat = w.toNat / 256 % 8 := by
  simp [splitWord, BitVec.extractLsb'_toNat, Nat.shiftRight_eq_div_pow]

theorem splitWord_imm_toNat (w : Word) : (splitWord w).imm.toNat = w.toNat % 256 := by
  simp [splitWord, BitVec.extractLsb'_toNat]

/-- Settles O6: each clause is a branch of `decodeFields`, its fields read as numbers. -/
theorem decodingByFields : Obligations.DecodingByFields := by
  intro w
  simp only [decodeWord, ← splitWord_fam_toNat, ← splitWord_form_toNat, ← splitWord_reg_toNat, ← splitWord_imm_toNat,
    BitVec.ofNat_toNat, BitVec.setWidth_eq]
  obtain ⟨cf, co, cr, ci⟩ := splitWord w
  refine ⟨fun hfam => ?_,
    fun ⟨hfam, hform, hreg, himm⟩ => ?_, fun ⟨hfam, hform, hbad⟩ => ?_,
    fun ⟨hfam, hform, hreg⟩ => ?_, fun ⟨hfam, hform, hreg⟩ => ?_,
    fun ⟨hfam, hform, hreg, himm⟩ => ?_, fun ⟨hfam, hform, hbad⟩ => ?_,
    fun ⟨hfam, hform⟩ => ?_⟩
  · obtain rfl : cf = 7#3 := BitVec.eq_of_toNat_eq hfam
    exact decodeFields_reservedFamily co cr ci
  all_goals obtain ⟨f, rfl⟩ := Family.exists_code (c := cf) (by bv_omega)
  · obtain rfl : co = Form.register.code := BitVec.eq_of_toNat_eq hform
    obtain ⟨r, rfl⟩ := Reg.exists_code (c := cr) (by bv_omega)
    obtain rfl : ci = 0 := BitVec.eq_of_toNat_eq himm
    exact ⟨f, r, rfl, rfl, decodeFields_register f r⟩
  · obtain rfl : co = Form.register.code := BitVec.eq_of_toNat_eq hform
    refine decodeFields_badRegister f ?_
    bv_omega
  · obtain rfl : co = Form.immediate.code := BitVec.eq_of_toNat_eq hform
    obtain rfl : cr = 0 := BitVec.eq_of_toNat_eq hreg
    exact ⟨f, rfl, decodeFields_immediate f ci⟩
  · obtain rfl : co = Form.immediate.code := BitVec.eq_of_toNat_eq hform
    refine decodeFields_badImmediate f ci ?_
    bv_omega
  · obtain rfl : co = Form.indirect.code := BitVec.eq_of_toNat_eq hform
    obtain rfl : cr = 0 := BitVec.eq_of_toNat_eq hreg
    obtain rfl : ci = 0 := BitVec.eq_of_toNat_eq himm
    exact ⟨f, rfl, decodeFields_indirect f⟩
  · obtain rfl : co = Form.indirect.code := BitVec.eq_of_toNat_eq hform
    refine decodeFields_badIndirect f ?_
    bv_omega
  · obtain rfl : co = 3#2 := BitVec.eq_of_toNat_eq hform
    exact decodeFields_reservedForm f cr ci

/-! ### The opcode map -/

section

variable (cf cr : BitVec 3) (ci : Byte)

@[simp] theorem WordFields.regOk_register : (WordFields.mk cf Form.register.code cr ci).regOk = (cr != 7#3) := rfl
@[simp] theorem WordFields.immOk_register : (WordFields.mk cf Form.register.code cr ci).immOk = (ci == 0#8) := rfl
@[simp] theorem WordFields.regOk_immediate : (WordFields.mk cf Form.immediate.code cr ci).regOk = (cr == 0#3) := rfl
@[simp] theorem WordFields.immOk_immediate : (WordFields.mk cf Form.immediate.code cr ci).immOk = true := rfl
@[simp] theorem WordFields.regOk_indirect : (WordFields.mk cf Form.indirect.code cr ci).regOk = (cr == 0#3) := rfl
@[simp] theorem WordFields.immOk_indirect : (WordFields.mk cf Form.indirect.code cr ci).immOk = (ci == 0#8) := rfl

end

/-- The words of one family and form are those with its codes whose other fields are as R45 to R47 want them. -/
theorem exists_fields_of_iff {fam : Family} {form : Form} {f : WordFields} :
    (∃ x : Operand, x.form = form ∧ (Instr.of fam x).fields = f) ↔
      f.fam = fam.code ∧ f.form = form.code ∧ f.regOk = true ∧ f.immOk = true := by
  constructor
  · rintro ⟨x, rfl, rfl⟩
    cases x <;> simp [Operand.form, Reg.code_ne_seven]
  · obtain ⟨cf, co, cr, ci⟩ := f
    rintro ⟨rfl, rfl, hreg, himm⟩
    cases form with
    | register =>
      obtain ⟨r, rfl⟩ := Reg.exists_code (c := cr) (by simpa using hreg)
      obtain rfl : ci = 0 := by simpa using himm
      exact ⟨.reg r, rfl, Instr.fields_of_reg fam r⟩
    | immediate =>
      obtain rfl : cr = 0 := by simpa using hreg
      exact ⟨.imm ci, rfl, Instr.fields_of_imm fam ci⟩
    | indirect =>
      obtain rfl : cr = 0 := by simpa using hreg
      obtain rfl : ci = 0 := by simpa using himm
      exact ⟨.ind, rfl, Instr.fields_of_ind fam⟩

/-- The bits of the register field that the map compares (R51). -/
def Form.regMask : Form → BitVec 3
  | .register => 0
  | .immediate | .indirect => .allOnes 3

/-- The bits of the immediate field that the map compares (R51). -/
def Form.immMask : Form → Byte
  | .immediate => 0
  | .register | .indirect => .allOnes 8

/-- Every row of the map compares the family, the form and zeros in the fields its form does not use (R47, R51). -/
theorem opcodeMap_row : ∀ row ∈ opcodeMap,
    row.pattern = joinWord ⟨row.family.code, row.form.code, 0, 0⟩ ∧
    row.mask = joinWord ⟨.allOnes 3, .allOnes 2, row.form.regMask, row.form.immMask⟩ := by
  decide

theorem joinWord_and (f g : WordFields) :
    joinWord f &&& joinWord g = joinWord ⟨f.fam &&& g.fam, f.form &&& g.form, f.reg &&& g.reg, f.imm &&& g.imm⟩ := by
  simp only [joinWord, ← BitVec.and_append]

theorem joinWord_inj {f g : WordFields} : joinWord f = joinWord g ↔ f = g :=
  ⟨fun h => by simpa using congrArg splitWord h, congrArg joinWord⟩

/-- Which fields a row selects: its family, its form, and those of a legal word (R47, R51). -/
theorem OpcodeRow.selects_joinWord {row : OpcodeRow} (hrow : row ∈ opcodeMap) (f : WordFields) :
    row.selects (joinWord f) = true ↔
      f.fam = row.family.code ∧ f.form = row.form.code ∧ f.regOk = true ∧ f.immOk = true := by
  obtain ⟨hpat, hmask⟩ := opcodeMap_row row hrow
  have hreg : (joinWord f).extractLsb' 8 3 = f.reg := congrArg WordFields.reg (splitWord_joinWord f)
  simp only [selects, hpat, hmask, hreg, joinWord_and, beq_iff_eq, joinWord_inj, Bool.and_eq_true, WordFields.mk.injEq,
    BitVec.and_allOnes, and_assoc]
  obtain ⟨cf, co, cr, ci⟩ := f
  refine and_congr_right fun _ => and_congr_right fun hform => ?_
  obtain rfl : co = row.form.code := hform
  cases row.form
  all_goals
    simp only [Form.regMask, Form.immMask, BitVec.and_allOnes]
    simp [and_comm]

/-- A row selects exactly the words of the instructions of its family and form. -/
theorem OpcodeRow.selects_iff {row : OpcodeRow} (hrow : row ∈ opcodeMap) (w : Word) :
    row.selects w = true ↔ ∃ i : Instr, decodeWord w = .ok i ∧ row.family = i.family ∧ row.form = i.form := by
  rw [← joinWord_splitWord w, selects_joinWord hrow, ← exists_fields_of_iff, joinWord_splitWord]
  simp only [decodeWord, decodeFields_eq_ok]
  constructor
  · rintro ⟨x, hform, hx⟩
    exact ⟨.of row.family x, hx, by simp [hform]⟩
  · rintro ⟨i, hi, hfam, hform⟩
    exact ⟨i.operand, hform.symm, by rw [hfam, i.of_family_operand, hi]⟩

/-- The map has one row for each family and form, and its engine column is true for the register and immediate
forms of ADD to SBC alone (R43, R51). -/
theorem opcodeMap_filter (f : Family) (g : Form) : ∃ row : OpcodeRow,
    (opcodeMap.filter fun row => row.family == f && row.form == g) = [row] ∧
    row.implemented = (f.implemented && g != .indirect) := by
  cases f <;> cases g <;> exact ⟨_, rfl, rfl⟩

/-- Settles O7: a row selects a word exactly when the word decodes to an instruction of the row's family and form. -/
theorem opcodeMapAgreesWithDecoder : Obligations.OpcodeMapAgreesWithDecoder := by
  refine ⟨fun w => ?_, fun i => opcodeMap_filter i.family i.form⟩
  cases h : decodeWord w with
  | ok i =>
    refine List.filter_congr fun row hrow => ?_
    rw [Bool.eq_iff_iff, OpcodeRow.selects_iff hrow]
    simp [h]
  | error e =>
    refine List.filter_eq_nil_iff.2 fun row hrow => ?_
    rw [OpcodeRow.selects_iff hrow]
    simp [h]

end Sys2Proof

/-! Execution, the clock edge and the ports (spec/40): what a clock does by the values on its ports, how a run goes on from the
state a first part of it leaves, and the statements of spec/40. -/

namespace Sys2Proof

/-! ### Store words (R55) -/

/-- R55: `sw = (sel << 8) | data`. -/
theorem encodeStoreWord_eq_shift (x : StoreWord) :
    encodeStoreWord x = x.sel.code.setWidth 16 <<< 8 ||| x.data.setWidth 16 := by
  have h := BitVec.setWidth_append_append_eq_shiftLeft_setWidth_or (w''' := 16) (b := 0#5) (b' := x.sel.code) (b'' := x.data)
  rw [BitVec.setWidth_eq, BitVec.setWidth_zero, BitVec.zero_shiftLeft, BitVec.zero_or] at h
  exact h

/-- R55: the fields of a store word are those it was written from, the upper five bits zero. -/
theorem splitStore_encodeStoreWord (x : StoreWord) : splitStore (encodeStoreWord x) = ⟨0, x.sel.code, x.data⟩ := by
  have htop : (0#5 ++ x.sel.code).extractLsb' 3 5 = 0 := BitVec.extractLsb'_append_eq_left
  have hsel : (0#5 ++ x.sel.code).extractLsb' 0 3 = x.sel.code := BitVec.extractLsb'_append_eq_right
  rw [splitStore, StoreFields.mk.injEq]
  exact ⟨(BitVec.extractLsb'_append_eq_of_le (by decide)).trans htop,
    (BitVec.extractLsb'_append_eq_of_le (by decide)).trans hsel, BitVec.extractLsb'_append_eq_right⟩

theorem decodeStoreWord_eq_ok {w : Word} {x : StoreWord} : decodeStoreWord w = .ok x ↔
    w.extractLsb' 11 5 = 0#5 ∧ ⟨Sel.ofCode (w.extractLsb' 8 3), w.extractLsb' 0 8⟩ = x := by
  by_cases h : w.extractLsb' 11 5 = 0#5 <;> simp [decodeStoreWord, splitStore, h]

/-- R55: a store word reads back as what it was written from. -/
theorem decodeStoreWord_encodeStoreWord (x : StoreWord) : decodeStoreWord (encodeStoreWord x) = .ok x := by
  simp [decodeStoreWord, splitStore_encodeStoreWord]

/-! ### Inert variants (R69, R70) -/

theorem Instr.implemented_of_ind (f : Family) : (Instr.of f .ind).implemented = false := by
  simp [Instr.implemented, Operand.form]

theorem Instr.implemented_of_family {f : Family} (h : f.implemented = false) (x : Operand) :
    (Instr.of f x).implemented = false := by
  simp [Instr.implemented, h]

end Sys2Proof

namespace Sys2Proof.Machine

open Sys2Proof

/-! ### `cmd_invalid` (R72) -/

theorem reservedInstrWord_iff {w : Word} : reservedInstrWord w = true ↔ ¬ ∃ i, decodeWord w = .ok i := by
  cases h : decodeWord w <;> simp [reservedInstrWord, h]

theorem reservedStoreWord_iff {w : Word} : reservedStoreWord w = true ↔ w.extractLsb' 11 5 ≠ 0#5 := by
  by_cases h : w.extractLsb' 11 5 = 0#5 <;> simp [reservedStoreWord, decodeStoreWord, splitStore, h]

/-- R72: the equation of `cmd_invalid`. -/
theorem Inputs.cmdInvalid_iff {p : Inputs} : p.cmdInvalid = true ↔ p.cmdValid = true ∧
    ((p.cmdKind = .execute ∧ ¬ ∃ i, decodeWord p.cmdWord = .ok i) ∨
     (p.cmdKind = .store ∧ p.cmdWord.extractLsb' 11 5 ≠ 0#5)) := by
  rw [Inputs.cmdInvalid, Bool.and_eq_true]
  refine and_congr_right fun _ => ?_
  cases p.cmdKind with
  | execute => simp [reservedInstrWord_iff]
  | store => simp [reservedStoreWord_iff]

theorem Inputs.cmdInvalid_of_not_valid {p : Inputs} (h : p.cmdValid = false) : p.cmdInvalid = false := by
  simp [Inputs.cmdInvalid, h]

/-- R72: an instruction's word is not reserved. -/
theorem cmdInvalid_execute_encodeWord (i : Instr) : (Inputs.execute (encodeWord i)).cmdInvalid = false := by
  rw [← Bool.not_eq_true, Inputs.cmdInvalid_iff]
  rintro ⟨_, ⟨_, hreserved⟩ | ⟨hkind, _⟩⟩
  · exact hreserved ⟨i, decodeWord_encodeWord i⟩
  · cases hkind

/-! ### A clock edge by the values on the ports (R61) -/

section

variable {p : Inputs} (s : State)

theorem clockEdge_reset (hrst : p.rst = true) : clockEdge p s = .next (hostReset s) := by
  simp [clockEdge, hrst]

theorem clockEdge_idle (hrst : p.rst = false) (hvalid : p.cmdValid = false) : clockEdge p s = .next s := by
  simp [clockEdge, hrst, hvalid]

theorem clockEdge_execute (hrst : p.rst = false) (hvalid : p.cmdValid = true) (hkind : p.cmdKind = .execute) {i : Instr}
    (hword : decodeWord p.cmdWord = .ok i) : clockEdge p s = exec i s := by
  simp [clockEdge, clockExecute, hrst, hvalid, hkind, hword]

theorem clockEdge_store (hrst : p.rst = false) (hvalid : p.cmdValid = true) (hkind : p.cmdKind = .store) {x : StoreWord}
    (hword : decodeStoreWord p.cmdWord = .ok x) : clockEdge p s = .next (hostStore x s) := by
  simp [clockEdge, clockStore, hrst, hvalid, hkind, hword]

/-- R72: a reserved word changes nothing. -/
theorem clockEdge_reserved (hrst : p.rst = false) (hinvalid : p.cmdInvalid = true) : clockEdge p s = .next s := by
  obtain ⟨hvalid, hword⟩ := Inputs.cmdInvalid_iff.1 hinvalid
  rcases clockEdge_cases p s with ⟨hrst', _⟩ | ⟨_, _, e⟩ | ⟨_, _, hkind, i, hi, _⟩ | ⟨_, _, hkind, x, hx, _⟩
  · simp [hrst] at hrst'
  · exact e
  · rcases hword with ⟨_, hno⟩ | ⟨hkind', _⟩
    · exact absurd ⟨i, hi⟩ hno
    · simp [hkind] at hkind'
  · rcases hword with ⟨hkind', _⟩ | ⟨_, htop⟩
    · simp [hkind] at hkind'
    · exact absurd (decodeStoreWord_eq_ok.1 hx).1 htop

/-- R61: a clock with no command, or with a reserved one. -/
theorem clockEdge_nothing (hrst : p.rst = false) (h : p.cmdValid = false ∨ p.cmdInvalid = true) :
    clockEdge p s = .next s :=
  h.elim (clockEdge_idle s hrst) (clockEdge_reserved s hrst)

end

/-- R74, R75: the clock of a STORE. -/
theorem step_present_store (x : StoreWord) (s : State) :
    step (s.present (Inputs.store (encodeStoreWord x))) = .next (hostStore x s) :=
  clockEdge_store s rfl rfl rfl (decodeStoreWord_encodeStoreWord x)

/-! ### The inputs a step leaves -/

/-- R62: a step takes the first of the host's inputs and leaves the others. -/
theorem step_inputs {s t : State} (h : step s = .next t) : t.inputs = s.inputs.tail := by
  obtain ⟨u, hu, hinputs⟩ := clockEdge_next s.pins s.nextClock
  obtain rfl : u = t := Host.Outcome.next.inj (hu.symm.trans h)
  exact hinputs

/-- What holds of everything the host presents holds of what it presents after a step. -/
theorem forall_inputs_step {P : Inputs → Prop} {s t : State} (h : step s = .next t) (hs : ∀ p ∈ s.inputs, P p) :
    ∀ p ∈ t.inputs, P p := by
  rw [step_inputs h]
  exact fun p hp => hs p (List.mem_of_mem_tail hp)

/-- A host that presents no STORE to a location has none on the ports now. -/
theorem pins_storesTo_of_forall {s : State} {sel : Sel} (h : ∀ p ∈ s.inputs, p.storesTo sel = false) :
    s.pins.storesTo sel = false := by
  cases hs : s.inputs with
  | nil => simp [State.pins, hs, Inputs.storesTo, Inputs.idle]
  | cons p ps => simpa [State.pins, hs] using h p (by simp [hs])

/-- Settles O49: of the effects a step can have, a reset writes zero, and a STORE or an instruction writes another location. -/
theorem stepKeepsUnstoredRegistersZero : Obligations.StepKeepsUnstoredRegistersZero := by
  intro r s hr ⟨hzero, hunstored⟩
  obtain ⟨t, hstep, heffect⟩ := step_effect s
  refine ⟨t, hstep, ?_, forall_inputs_step hstep hunstored⟩
  rcases heffect with rfl | ⟨_, rfl⟩ | ⟨x, hx, rfl⟩ | ⟨_, v, f, rfl⟩
  · exact hzero
  · exact Regs.load_zero r
  · have hsel : x.sel ≠ .reg r := by
      intro hsel
      rw [hsel, pins_storesTo_of_forall hunstored] at hx
      cases hx
    exact (load_hostStore_other hsel _).trans hzero
  · exact (State.load_store_other hr _ v).trans hzero

/-! ### The ALU (R65) -/

/-- A sum taken in two wrapping steps passes 255 exactly when one of the steps does. -/
theorem carry_of_two_steps (a y z : Nat) :
    decide (a + y + z > 255) = (decide (a + y > 255) || decide ((a + y) % 256 + z > 255)) := by
  rw [← Bool.decide_or]
  exact decide_eq_decide.2 (by omega)

/-- A difference taken in two wrapping steps passes 0 exactly when one of the steps does. -/
theorem borrow_of_two_steps {a : Nat} (ha : a < 256) (y z : Nat) :
    decide (a < y + z) = (decide (a < y) || decide (((a : Int) - y) % 256 < z)) := by
  rw [← Bool.decide_or]
  exact decide_eq_decide.2 (by omega)

/-- The result of ADC is the wrapping sum (R65, law V2). -/
theorem ofNat_sum_eq_wrapping (a x : Byte) (k : Nat) : BitVec.ofNat 8 (a.toNat + x.toNat + k) = a + x + BitVec.ofNat 8 k := by
  simp [BitVec.ofNat_add]

/-- The result of SBC is the wrapping difference (R65). -/
theorem ofInt_difference_eq_wrapping (a x : Byte) (k : Nat) :
    BitVec.ofInt 8 ((a.toNat : Int) - x.toNat - k) = a - x - BitVec.ofNat 8 k := by
  simp [Int.sub_eq_add_neg, BitVec.sub_eq_add_neg, BitVec.ofInt_add, BitVec.ofInt_neg]

/-- Settles O10: the closed forms, and the two laws by which each order of the steps has the same carry. -/
theorem aluTwoStepsAndClosedForms : Obligations.AluTwoStepsAndClosedForms := by
  intro a x cin k h up down
  have hup : up = aluOut (BitVec.ofNat 8 (a.toNat + x.toNat + k), decide (a.toNat + x.toNat + k > 255)) false h :=
    alu_adc_eq a x cin
  have hdown : down = aluOut (BitVec.ofInt 8 ((a.toNat : Int) - x.toNat - k), decide (a.toNat < x.toNat + k)) true h :=
    alu_sbc_eq a x cin
  rw [hup, hdown]
  refine ⟨⟨rfl, ofNat_sum_eq_wrapping a x k, rfl, carry_of_two_steps .., ?_⟩,
    ⟨rfl, ofInt_difference_eq_wrapping a x k, rfl, borrow_of_two_steps a.isLt .., ?_⟩,
    alu_add_eq a x cin, alu_sub_eq a x cin⟩
  · rw [← carry_of_two_steps, Nat.add_right_comm]
    rfl
  · rw [← borrow_of_two_steps a.isLt, Nat.add_comm]
    rfl

/-! ### `execute` over all instructions (R66 to R71) -/

/-- Settles O27: an inert variant answers its own state, an implemented one writes A and F. -/
theorem executeTotalAndFramed : Obligations.ExecuteTotalAndFramed := by
  intro i s
  rcases exec_cases i s with ⟨_, e⟩ | ⟨himpl, op, x, e⟩
  · exact ⟨s, e, fun _ => .inr rfl, rfl, .inr rfl⟩
  · refine ⟨_, e, fun r => ?_, rfl, .inl himpl⟩
    by_cases hr : r = .a
    · exact .inl hr
    · exact .inr (Regs.load_store_other s.regs _ hr)

/-- Settles O21: an indirect form is an inert variant; the words are those the encoder writes. -/
theorem indirectFormsAreInert : Obligations.IndirectFormsAreInert := by
  intro s
  have hinert (f : Family) : exec (.of f .ind) s = .next s := exec_of_inert (Instr.implemented_of_ind f) s
  exact ⟨hinert, ⟨hinert .add, hinert .adc, hinert .sub, hinert .sbc⟩, ⟨rfl, rfl, rfl, rfl⟩,
    ⟨decodeWord_eq_ok.2 rfl, decodeWord_eq_ok.2 rfl, decodeWord_eq_ok.2 rfl, decodeWord_eq_ok.2 rfl⟩,
    fun f => cmdInvalid_execute_encodeWord (.of f .ind)⟩

/-- Settles O25: every form of a family the engine does not implement is an inert variant. -/
theorem unimplementedFamiliesAreInert : Obligations.UnimplementedFamiliesAreInert := fun x s =>
  ⟨exec_of_inert (Instr.implemented_of_family rfl x) s, exec_of_inert (Instr.implemented_of_family rfl x) s,
    exec_of_inert (Instr.implemented_of_family rfl x) s⟩

/-- Settles O26: the two forms of an implemented family give `arith` the same operand, those of the others are both inert. -/
theorem registerFormIsImmediateForm : Obligations.RegisterFormIsImmediateForm := by
  intro f r s
  cases f with
  | add | adc | sub | sbc => rfl
  | and | or | xor => exact (exec_of_inert rfl s).trans (exec_of_inert rfl s).symm

/-! ### One clock -/

/-- Settles O32: the four steps a clock edge can take, each under the conditions it is taken. -/
theorem clockEdgePriority : Obligations.ClockEdgePriority := by
  intro p s
  rw [step_present]
  rcases clockEdge_cases p s with
    ⟨hrst, e⟩ | ⟨hrst, hidle | hinvalid, e⟩ | ⟨hrst, hvalid, hkind, i, hi, e⟩ | ⟨hrst, hvalid, hkind, x, hx, e⟩
  · simp [e, hrst, hostReset]
  · simp [e, hrst, hidle]
  · obtain ⟨hvalid, ⟨hkind, hno⟩ | ⟨hkind, htop⟩⟩ := Inputs.cmdInvalid_iff.1 hinvalid
    · cases h : decodeWord p.cmdWord with
      | ok i => exact absurd ⟨i, h⟩ hno
      | error _ => simp [e, hrst, hvalid, hkind]
    · simp [e, hrst, hvalid, hkind, htop]
  · simp [e, hrst, hvalid, hkind, hi]
  · obtain ⟨htop, rfl⟩ := decodeStoreWord_eq_ok.1 hx
    simp [e, hrst, hvalid, hkind, htop]

/-- Settles O37: the laws of `cmd_invalid` above; it is an output of the ports alone. -/
theorem reservedWordsRaiseInvalidAndChangeNothing : Obligations.ReservedWordsRaiseInvalidAndChangeNothing :=
  ⟨fun _ => Inputs.cmdInvalid_iff, fun _ s hinvalid hrst => clockEdge_reserved s hrst hinvalid, fun _ _ => rfl,
    cmdInvalid_execute_encodeWord⟩

/-- Settles O38: the word is the store word of the register and the byte. -/
theorem storeToRegisterWritesItAlone : Obligations.StoreToRegisterWritesItAlone := by
  intro r v s
  have hstep := step_present_store ⟨.reg r, v⟩ s
  rw [encodeStoreWord_eq_shift] at hstep
  exact ⟨_, hstep, registersAreIndependent s r v⟩

theorem State.readPort_code (s : State) (r : Reg) : s.readPort r.code = s.load r := by
  simp [State.readPort, Sel.ofCode]

theorem State.readPort_seven (s : State) : s.readPort 7#3 = s.flags.encode := rfl

/-- Settles O39: the word is the store word of selector 7 and the byte. -/
theorem storeToFlagsDecodesTheByte : Obligations.StoreToFlagsDecodesTheByte := by
  intro v s
  have hstep := step_present_store ⟨.flags, v⟩ s
  rw [encodeStoreWord_eq_shift] at hstep
  exact ⟨_, hstep, rfl, fun _ => rfl, Flags.encode_decode v⟩

/-- R15, R16: bits 3..0 of the flag byte are zero. -/
theorem Flags.encode_and_low_nibble (f : Flags) : f.encode &&& 0x0F#8 = 0#8 := by
  obtain ⟨z, n, h, c⟩ := f
  revert z n h c
  decide

/-- Settles O40: the read port shows the state before the edge, which a command does not change. -/
theorem readPortShowsTheState : Obligations.ReadPortShowsTheState := fun _ _ _ _ s =>
  ⟨fun r => State.readPort_code s r, State.readPort_seven s, Flags.encode_and_low_nibble s.flags, Flags.decode_encode s.flags⟩

/-! ### Runs -/

/-- R62: the first of the host's inputs is on the ports of the first clock of a run. -/
theorem run_cons {p : Inputs} {g : Regs} {f : Flags} {ps : List Inputs} {t : State} (k : Nat)
    (h : clockEdge p ⟨g, f, ps⟩ = .next t) : core.run (k + 1) (⟨g, f, p :: ps⟩ : State) = core.run k t :=
  run_succ core k h

/-- Settles O36, by induction on the list of idle clocks. -/
theorem idleClocksHoldTheState : Obligations.IdleClocksHoldTheState := by
  refine ⟨fun ps s hidle => ?_, fun _ => Inputs.cmdInvalid_of_not_valid⟩
  induction ps with
  | nil => rfl
  | cons p ps ih =>
    obtain ⟨⟨hrst, hvalid⟩, hps⟩ := List.forall_mem_cons.1 hidle
    exact (run_cons ps.length (clockEdge_idle _ hrst hvalid)).trans (ih hps)

/-- A run of `j + k` steps goes on from where the first `j` end. -/
theorem run_add {M : Host.Core} {j : Nat} (k : Nat) {s t : M.State} (h : M.run j s = .next t) :
    M.run (j + k) s = M.run k t := by
  induction j generalizing s with
  | zero =>
    obtain rfl : s = t := Host.Outcome.next.inj h
    rw [Nat.zero_add]
  | succ j ih =>
    cases hs : M.step s with
    | next u =>
      rw [run_succ M j hs] at h
      calc M.run (j + 1 + k) s = M.run (j + k + 1) s := by rw [Nat.add_right_comm]
        _ = M.run (j + k) u := run_succ M (j + k) hs
        _ = M.run k t := ih h
    | fault r => simp [Host.Core.run, hs] at h
    | refused r => simp [Host.Core.run, hs] at h

/-- R62: what an instruction answers does not depend on what the host presents later. -/
theorem exec_same_for_all_inputs (i : Instr) (g : Regs) (f : Flags) :
    ∃ g' f', ∀ ps, exec i ⟨g, f, ps⟩ = .next ⟨g', f', ps⟩ := by
  cases h : i.implemented with
  | false => exact ⟨g, f, fun ps => exec_of_inert h ⟨g, f, ps⟩⟩
  | true =>
    obtain ⟨op, x, hexec, _⟩ := exec_eq_arith h g
    exact ⟨g.store .a (alu op g.a x f.carry).res, (alu op g.a x f.carry).flags, hexec f⟩

/-- R62: what a clock leaves does not depend on what the host presents later. -/
theorem clockEdge_same_for_all_inputs (p : Inputs) (g : Regs) (f : Flags) :
    ∃ g' f', ∀ ps, clockEdge p ⟨g, f, ps⟩ = .next ⟨g', f', ps⟩ := by
  rcases clockEdge_cases p ⟨g, f, []⟩ with
    ⟨hrst, _⟩ | ⟨hrst, hnothing, _⟩ | ⟨hrst, hvalid, hkind, i, hi, _⟩ | ⟨hrst, hvalid, hkind, ⟨sel, v⟩, hx, _⟩
  · exact ⟨.zero, .clear, fun _ => clockEdge_reset _ hrst⟩
  · exact ⟨g, f, fun _ => clockEdge_nothing _ hrst hnothing⟩
  · obtain ⟨g', f', hexec⟩ := exec_same_for_all_inputs i g f
    exact ⟨g', f', fun ps => (clockEdge_execute _ hrst hvalid hkind hi).trans (hexec ps)⟩
  · cases sel with
    | reg r => exact ⟨g.store r v, f, fun _ => clockEdge_store _ hrst hvalid hkind hx⟩
    | flags => exact ⟨g, Flags.decode v, fun _ => clockEdge_store _ hrst hvalid hkind hx⟩

/-- R62: the clocks of `ps` leave the same registers and flags whatever the host presents behind them, and leave that. -/
theorem run_same_for_all_later_inputs (ps : List Inputs) (g : Regs) (f : Flags) :
    ∃ g' f', ∀ qs, core.run ps.length (⟨g, f, ps ++ qs⟩ : State) = .next (⟨g', f', qs⟩ : State) := by
  induction ps generalizing g f with
  | nil => exact ⟨g, f, fun _ => rfl⟩
  | cons p ps ih =>
    obtain ⟨g₁, f₁, hedge⟩ := clockEdge_same_for_all_inputs p g f
    obtain ⟨g₂, f₂, hrun⟩ := ih g₁ f₁
    exact ⟨g₂, f₂, fun qs => (run_cons ps.length (hedge (ps ++ qs))).trans (hrun qs)⟩

/-- Settles O43: the clocks of `ps` leave registers and flags of their own, from which those of `qs` go on. -/
theorem commandsTakeEffectInOrder : Obligations.CommandsTakeEffectInOrder := by
  intro ps qs g f
  obtain ⟨g', f', hrun⟩ := run_same_for_all_later_inputs ps g f
  refine ⟨⟨g', f', []⟩, by simpa using hrun [], ?_⟩
  rw [List.length_append]
  exact run_add qs.length (hrun qs)

end Sys2Proof.Machine

/-! ADD and ADC (spec/41): the words of a family's immediate and register forms, what the shared handler answers for an addition,
and the statements of spec/41. -/

namespace Sys2Proof

/-- R47, R50, R51: the words of an immediate form are one pattern with the byte in bits 7..0. -/
theorem encodeWord_imm_eq_or (f : Family) (n : Byte) :
    encodeWord (.of f (.imm n)) = encodeWord (.of f (.imm 0)) ||| n.setWidth 16 := by
  apply BitVec.eq_of_toNat_eq
  rw [BitVec.toNat_or, BitVec.toNat_setWidth_of_le (by decide)]
  simp [encodeWord, joinWord_toNat]

/-- R47, R50, R51: the words of a register form are one pattern with the code in bits 10..8; A has code 0. -/
theorem encodeWord_reg_eq_or (f : Family) (r : Reg) :
    encodeWord (.of f (.reg r)) = encodeWord (.of f (.reg .a)) ||| r.code.setWidth 16 <<< 8 := by
  apply BitVec.eq_of_toNat_eq
  have hcode : (r.code.setWidth 16 <<< 8).toNat = r.code.toNat <<< 8 := by cases r <;> rfl
  rw [BitVec.toNat_or, hcode]
  simp [encodeWord, joinWord_toNat, show Reg.a.code = 0 from rfl]

end Sys2Proof

namespace Sys2Proof.Machine

open Sys2Proof

/-- R65, R83: the result and the four flags of ADC as conditions on the sum. -/
theorem alu_adc_of_sum (a x : Byte) (cin : Bool) :
    alu .adc a x cin =
      { res := BitVec.ofNat 8 (a.toNat + x.toNat + b2n cin)
        flags :=
          { zero := decide ((a.toNat + x.toNat + b2n cin) % 256 = 0)
            subtraction := false
            halfCarry := decide (lowNibble a + lowNibble x + b2n cin > 0xF)
            carry := decide (a.toNat + x.toNat + b2n cin > 255) } } := by
  rw [alu_adc_eq, aluOut, ofNat_isZero]

/-- R65, R80: the same of ADD, whose carry-in is 0 whatever the carry flag was. -/
theorem alu_add_of_sum (a x : Byte) (cin : Bool) :
    alu .add a x cin =
      { res := BitVec.ofNat 8 (a.toNat + x.toNat)
        flags :=
          { zero := decide ((a.toNat + x.toNat) % 256 = 0)
            subtraction := false
            halfCarry := decide (lowNibble a + lowNibble x > 0xF)
            carry := decide (a.toNat + x.toNat > 255) } } :=
  (alu_add_eq a x cin).trans (alu_adc_of_sum a x false)

/-- Settles O15: the word is the pattern of ADC's immediate form, the state the handler's with the ALU's sum. -/
theorem adcImmediateResult : Obligations.AdcImmediateResult := by
  intro n s
  have hword := encodeWord_imm_eq_or .adc n
  refine ⟨hword, decodeWord_eq_ok.2 hword, (arith_eq .adc n s).trans ?_⟩
  rw [alu_adc_of_sum]
  rfl

/-- Settles O16: the register form is the immediate form of the register's value. -/
theorem adcRegisterResult : Obligations.AdcRegisterResult := by
  intro r s
  obtain ⟨_, _, himm⟩ := adcImmediateResult (s.load r) s
  have hword := encodeWord_reg_eq_or .adc r
  have hreg := registerFormIsImmediateForm .adc r s
  exact ⟨hword, decodeWord_eq_ok.2 hword, hreg, hreg.trans himm⟩

/-- Settles O13: the word is the pattern of ADD's immediate form, the state the handler's with the ALU's sum. -/
theorem addImmediateResult : Obligations.AddImmediateResult := by
  intro n s
  have hword := encodeWord_imm_eq_or .add n
  refine ⟨hword, decodeWord_eq_ok.2 hword, (arith_eq .add n s).trans ?_⟩
  rw [alu_add_of_sum]
  rfl

/-- Settles O14: the register form is the immediate form of the register's value. -/
theorem addRegisterResult : Obligations.AddRegisterResult := by
  intro r s
  obtain ⟨_, _, himm⟩ := addImmediateResult (s.load r) s
  have hword := encodeWord_reg_eq_or .add r
  have hreg := registerFormIsImmediateForm .add r s
  exact ⟨hword, decodeWord_eq_ok.2 hword, hreg, hreg.trans himm⟩

end Sys2Proof.Machine

/-! SUB and SBC (spec/42): what the ALU answers for a subtraction, the register form of a family by its immediate form, and the
statements of spec/42. -/

namespace Sys2Proof.Machine

open Sys2Proof

/-- R65, R93: the result and the four flags of SBC as conditions on the difference, the half-carry as one on a sum of nibbles. -/
theorem alu_sbc_of_difference (a x : Byte) (cin : Bool) :
    alu .sbc a x cin =
      { res := BitVec.ofInt 8 ((a.toNat : Int) - x.toNat - b2n cin)
        flags :=
          { zero := decide (((a.toNat : Int) - x.toNat - b2n cin) % 256 = 0)
            subtraction := true
            halfCarry := decide (lowNibble a + lowNibble x + b2n cin > 0xF)
            carry := decide (a.toNat < x.toNat + b2n cin) } } := by
  rw [alu_sbc_eq, aluOut, ofInt_isZero]

/-- R65, R90: the same of SUB, whose carry-in is 0 whatever the carry flag was. -/
theorem alu_sub_of_difference (a x : Byte) (cin : Bool) :
    alu .sub a x cin =
      { res := BitVec.ofInt 8 ((a.toNat : Int) - x.toNat)
        flags :=
          { zero := decide (((a.toNat : Int) - x.toNat) % 256 = 0)
            subtraction := true
            halfCarry := decide (lowNibble a + lowNibble x > 0xF)
            carry := decide (a.toNat < x.toNat) } } := by
  have hzero : ((b2n false : Nat) : Int) = 0 := rfl
  rw [alu_sub_eq, alu_sbc_of_difference, hzero, Int.sub_zero]
  rfl

/-- R71: a family's register form has its own word, and answers what the immediate form of the register's value answers. -/
theorem registerForm_of_immediateForm {f : Family} {r : Reg} {s : State} {out : Host.Outcome State Fault Refusal}
    (himm : exec (.of f (.imm (s.load r))) s = out) :
    encodeWord (.of f (.reg r)) = encodeWord (.of f (.reg .a)) ||| r.code.setWidth 16 <<< 8 ∧
    decodeWord (encodeWord (.of f (.reg .a)) ||| r.code.setWidth 16 <<< 8) = .ok (.of f (.reg r)) ∧
    exec (.of f (.reg r)) s = exec (.of f (.imm (s.load r))) s ∧ exec (.of f (.reg r)) s = out := by
  have hword := encodeWord_reg_eq_or f r
  have hreg := registerFormIsImmediateForm f r s
  exact ⟨hword, decodeWord_eq_ok.2 hword, hreg, hreg.trans himm⟩

/-- Settles O17: the word is the pattern of SUB's immediate form, the state the handler's with the ALU's difference. -/
theorem subImmediateResult : Obligations.SubImmediateResult := by
  intro n s
  have hword := encodeWord_imm_eq_or .sub n
  refine ⟨hword, decodeWord_eq_ok.2 hword, (arith_eq .sub n s).trans ?_⟩
  rw [alu_sub_of_difference]
  rfl

/-- Settles O18: the register form is the immediate form of the register's value. -/
theorem subRegisterResult : Obligations.SubRegisterResult := by
  intro r s
  obtain ⟨_, _, himm⟩ := subImmediateResult (s.load r) s
  exact registerForm_of_immediateForm (f := .sub) himm

/-- Settles O19: the word is the pattern of SBC's immediate form, the state the handler's with the ALU's difference. -/
theorem sbcImmediateResult : Obligations.SbcImmediateResult := by
  intro n s
  have hword := encodeWord_imm_eq_or .sbc n
  refine ⟨hword, decodeWord_eq_ok.2 hword, (arith_eq .sbc n s).trans ?_⟩
  rw [alu_sbc_of_difference]
  rfl

/-- Settles O20: the register form is the immediate form of the register's value. -/
theorem sbcRegisterResult : Obligations.SbcRegisterResult := by
  intro r s
  obtain ⟨_, _, himm⟩ := sbcImmediateResult (s.load r) s
  exact registerForm_of_immediateForm (f := .sbc) himm

end Sys2Proof.Machine

/-! AND, OR and XOR (spec/43): an inert variant with its word, the three forms of a family the engine does not implement, and the
statements of spec/43. -/

namespace Sys2Proof.Machine

open Sys2Proof

/-- R50, R69, R70: an inert variant changes nothing, and its word, under whatever spelling, decodes to it. -/
theorem inert_variant_of_word {i : Instr} {w : Word} (hinert : i.implemented = false) (hword : encodeWord i = w) (s : State) :
    exec i s = .next s ∧ encodeWord i = w ∧ decodeWord w = .ok i :=
  ⟨exec_of_inert hinert s, hword, decodeWord_eq_ok.2 hword⟩

/-- R51, R70, R72: every form of a family that is not implemented is inert, its words are the family's pattern of that form with
the operand's bits, and none of them is reserved. -/
theorem unimplementedFamily_forms {f : Family} {regPattern immPattern indWord : Word} (h : f.implemented = false)
    (hreg : encodeWord (.of f (.reg .a)) = regPattern) (himm : encodeWord (.of f (.imm 0)) = immPattern)
    (hind : encodeWord (.of f .ind) = indWord) :
    (∀ (r : Reg) (s : State), exec (.of f (.reg r)) s = .next s ∧
      encodeWord (.of f (.reg r)) = regPattern ||| r.code.setWidth 16 <<< 8 ∧
      decodeWord (regPattern ||| r.code.setWidth 16 <<< 8) = .ok (.of f (.reg r))) ∧
    (∀ (n : Byte) (s : State), exec (.of f (.imm n)) s = .next s ∧
      encodeWord (.of f (.imm n)) = immPattern ||| n.setWidth 16 ∧
      decodeWord (immPattern ||| n.setWidth 16) = .ok (.of f (.imm n))) ∧
    (∀ s : State, exec (.of f .ind) s = .next s ∧ encodeWord (.of f .ind) = indWord ∧
      decodeWord indWord = .ok (.of f .ind)) ∧
    (∀ x : Operand, (Inputs.execute (encodeWord (.of f x))).cmdInvalid = false) := by
  subst hreg himm
  have hinert := Instr.implemented_of_family h
  refine ⟨fun r => ?_, fun n => ?_, ?_, fun x => ?_⟩
  · exact inert_variant_of_word (hinert (.reg r)) (encodeWord_reg_eq_or f r)
  · exact inert_variant_of_word (hinert (.imm n)) (encodeWord_imm_eq_or f n)
  · exact inert_variant_of_word (hinert .ind) hind
  · exact cmdInvalid_execute_encodeWord (.of f x)

/-- Settles O22: AND is not implemented, and the encoder writes its patterns. -/
theorem andIsInert : Obligations.AndIsInert := unimplementedFamily_forms (f := .and) rfl rfl rfl rfl

/-- Settles O23: OR is not implemented, and the encoder writes its patterns. -/
theorem orIsInert : Obligations.OrIsInert := unimplementedFamily_forms (f := .or) rfl rfl rfl rfl

/-- Settles O24: XOR is not implemented, and the encoder writes its patterns. -/
theorem xorIsInert : Obligations.XorIsInert := unimplementedFamily_forms (f := .xor) rfl rfl rfl rfl

end Sys2Proof.Machine

/-! Exceptions (spec/60): the statement that a step raises none. -/

namespace Sys2Proof.Machine

/-- Settles O41: every effect that a step can have (R22) answers a next state, which is neither a fault nor a refusal. -/
theorem stepNeverFaultsOrRefuses : Obligations.StepNeverFaultsOrRefuses := by
  intro s
  obtain ⟨t, hstep, _⟩ := step_effect s
  rw [hstep]
  exact ⟨nofun, nofun⟩

end Sys2Proof.Machine

/-! Reset and hazards (spec/70): the accumulator as its own operand, what a reset clock leaves, runs of any length and the clocks
that can be left out of one. -/

namespace Sys2Proof.Machine

open Sys2Proof

/-! ### The accumulator as its own operand (R146) -/

/-- A nibble added to itself carries out of bit 3 exactly when its own bit 3 is set, whatever the carry-in. -/
theorem halfCarry_self (a : Byte) {k : Nat} (hk : k ≤ 1) :
    decide (lowNibble a + lowNibble a + k > 0xF) = decide (a.toNat % 16 ≥ 8) := by
  rw [lowNibble_eq]
  exact decide_eq_decide.2 (by omega)

/-- Twice a byte with a carry-in wraps to zero exactly when the byte is 0x00 or 0x80 and the carry-in is 0. -/
theorem double_mod_eq_zero_iff (a : Byte) {k : Nat} (hk : k ≤ 1) :
    (a.toNat + a.toNat + k) % 256 = 0 ↔ (a = 0x00#8 ∨ a = 0x80#8) ∧ k = 0 := by
  have ha := a.isLt
  simp only [← BitVec.toNat_inj, BitVec.toNat_ofNat]
  omega

/-- R65, R146: ADC of a byte to itself doubles it and adds the carry-in. -/
theorem alu_adc_self (a : Byte) (cin : Bool) :
    alu .adc a a cin =
      { res := BitVec.ofNat 8 (2 * a.toNat + b2n cin)
        flags :=
          { zero := decide ((a = 0x00#8 ∨ a = 0x80#8) ∧ b2n cin = 0)
            subtraction := false
            halfCarry := decide (a.toNat % 16 ≥ 8)
            carry := decide (a.toNat ≥ 0x80) } } := by
  have hk : b2n cin ≤ 1 := Bool.toNat_le cin
  have hcarry : decide (a.toNat + a.toNat + b2n cin > 255) = decide (a.toNat ≥ 0x80) := decide_eq_decide.2 (by omega)
  rw [alu_adc_of_sum, halfCarry_self a hk, decide_eq_decide.2 (double_mod_eq_zero_iff a hk), hcarry, Nat.two_mul]

/-- R65, R146: SBC of a byte from itself leaves the borrow of the carry-in alone. -/
theorem alu_sbc_self (a : Byte) (cin : Bool) :
    alu .sbc a a cin =
      { res := if b2n cin = 0 then 0x00#8 else 0xFF#8
        flags :=
          { zero := decide (b2n cin = 0)
            subtraction := true
            halfCarry := decide (a.toNat % 16 ≥ 8)
            carry := decide (b2n cin = 1) } } := by
  rw [alu_sbc_of_difference, halfCarry_self a (Bool.toNat_le cin), Int.sub_self]
  cases cin <;> simp

/-- Settles O29: each of the four is the shared handler with A as both operands; ADD and SUB are ADC and SBC with no carry-in. -/
theorem accumulatorAsOwnOperand : Obligations.AccumulatorAsOwnOperand := by
  intro s a k half
  refine ⟨(arith_eq .add a s).trans ?_, (arith_eq .adc a s).trans ?_, (arith_eq .sub a s).trans ?_,
    (arith_eq .sbc a s).trans ?_⟩
  · rw [alu_add_eq, alu_adc_self]
    simp [a, half]
  · rw [alu_adc_self]
  · rw [alu_sub_eq, alu_sbc_self]
    simp [a, half]
  · rw [alu_sbc_self]

/-! ### Reset (R140, R142) -/

/-- R140, R142: after a reset clock a run goes on from the reset values and what the host presents next. -/
theorem run_reset {p : Inputs} (hrst : p.rst = true) (g : Regs) (f : Flags) (ps : List Inputs) (k : Nat) :
    core.run (k + 1) (⟨g, f, p :: ps⟩ : State) = core.run k (⟨.zero, .clear, ps⟩ : State) :=
  run_cons k (clockEdge_reset _ hrst)

/-- Settles O34: reset comes before every command, and every field of the reset state is zero. -/
theorem resetBeatsEveryCommand : Obligations.ResetBeatsEveryCommand := fun _ _ _ _ s =>
  ⟨hostReset s, clockEdge_reset s rfl, Regs.load_zero, rfl⟩

/-- Settles O35: behind the reset clock both runs go on from one state. -/
theorem nothingSurvivesReset : Obligations.NothingSurvivesReset := by
  intro valid kind w sel ps g g' f f' k
  rw [run_reset rfl g, run_reset rfl g']

/-! ### Runs of any length (R144) -/

/-- R62, R144: a step answers next, with the first of the host's inputs used up. -/
theorem step_next (s : State) : ∃ t, step s = .next t ∧ t.inputs = s.inputs.tail :=
  clockEdge_next s.pins s.nextClock

/-- Settles O42, by induction on the number of clocks. -/
theorem runsNeverGetStuck : Obligations.RunsNeverGetStuck := by
  intro k
  induction k with
  | zero => exact fun s => ⟨s, rfl, rfl⟩
  | succ k ih =>
    intro s
    obtain ⟨u, hstep, hu⟩ := step_next s
    obtain ⟨t, hrun, ht⟩ := ih u
    exact ⟨t, (run_succ core k hstep).trans hrun, by rw [ht, hu, List.drop_tail]⟩

/-! ### Clocks that do nothing (R52, R145) -/

/-- R52: the three kinds of clock that do nothing. -/
theorem Inputs.doesNothing_iff {p : Inputs} : p.doesNothing = true ↔ p.rst = false ∧
    (p.cmdValid = false ∨ p.cmdInvalid = true ∨
      (p.cmdKind = .execute ∧ ∃ i, decodeWord p.cmdWord = .ok i ∧ i.implemented = false)) := by
  cases h : decodeWord p.cmdWord <;> simp [Inputs.doesNothing, h, or_assoc]

/-- R52: a clock of these kinds changes no register and no flag. -/
theorem clockEdge_doesNothing {p : Inputs} (h : p.doesNothing = true) (s : State) : clockEdge p s = .next s := by
  obtain ⟨hrst, hvalid | hinvalid | ⟨hkind, i, hi, hinert⟩⟩ := Inputs.doesNothing_iff.1 h
  · exact clockEdge_idle s hrst hvalid
  · exact clockEdge_reserved s hrst hinvalid
  · cases hvalid : p.cmdValid with
    | false => exact clockEdge_idle s hrst hvalid
    | true => exact (clockEdge_execute s hrst hvalid hkind hi).trans (exec_of_inert hinert s)

/-- Settles O44, by induction on the list: a clock that does nothing leaves the state the shorter run starts from, and any other
clock takes both runs to the same registers and flags. -/
theorem clocksThatDoNothingCanBeLeftOut : Obligations.ClocksThatDoNothingCanBeLeftOut := by
  intro ps
  induction ps with
  | nil => exact fun g f => ⟨⟨g, f, []⟩, rfl, rfl⟩
  | cons p ps ih =>
    intro g f
    cases hp : p.doesNothing with
    | true =>
      obtain ⟨t, hall, hkept⟩ := ih g f
      refine ⟨t, (run_cons ps.length (clockEdge_doesNothing hp _)).trans hall, ?_⟩
      rwa [List.filter_cons_of_neg (by simp [hp])]
    | false =>
      obtain ⟨g', f', hedge⟩ := clockEdge_same_for_all_inputs p g f
      obtain ⟨t, hall, hkept⟩ := ih g' f'
      refine ⟨t, (run_cons ps.length (hedge ps)).trans hall, ?_⟩
      rw [List.filter_cons_of_pos (by simp [hp])]
      exact (run_cons _ (hedge _)).trans hkept

end Sys2Proof.Machine

/-! The flag byte after the ALU (law V11), and the invariant that law is. -/

namespace Sys2Proof.Machine

open Sys2Proof

/-! ### The flag bytes an operation can leave -/

/-- Law V11: the flag bytes an operation of the ALU can leave. -/
def aluFlagBytes : AluOp → List Byte
  | .add | .adc => [0x00, 0x10, 0x20, 0x30, 0x80, 0x90, 0xB0]
  | .sub => [0x40, 0x50, 0x60, 0x70, 0xC0, 0xE0]
  | .sbc => [0x40, 0x50, 0x60, 0x70, 0xC0, 0xE0, 0xF0]

/-- R18: flags with the same byte are the same flags. -/
theorem Flags.encode_inj {f f' : Flags} : f.encode = f'.encode ↔ f = f' :=
  ⟨fun h => by simpa using congrArg Flags.decode h, congrArg Flags.encode⟩

/-- Of the bytes with subtraction 0, only 0xA0 is not an addition's: zero and half-carry without carry. -/
theorem Flags.encode_mem_flagBytes_adc {f : Flags} (hsub : f.subtraction = false)
    (h : f.zero = true → f.halfCarry = true → f.carry = true) : f.encode ∈ aluFlagBytes .adc := by
  obtain ⟨z, n, hc, c⟩ := f
  revert z n hc c
  decide

/-- Of the bytes with subtraction 1, SBC's are all but 0xD0: zero and carry without half-carry. -/
theorem Flags.encode_mem_flagBytes_sbc {f : Flags} (hsub : f.subtraction = true)
    (h : f.zero = true → f.carry = true → f.halfCarry = true) : f.encode ∈ aluFlagBytes .sbc := by
  obtain ⟨z, n, hc, c⟩ := f
  revert z n hc c
  decide

/-- Of the bytes with subtraction 1, SUB's are those without zero and carry together. -/
theorem Flags.encode_mem_flagBytes_sub {f : Flags} (hsub : f.subtraction = true)
    (h : f.zero = true → f.carry = false) : f.encode ∈ aluFlagBytes .sub := by
  obtain ⟨z, n, hc, c⟩ := f
  revert z n hc c
  decide

/-- R65: a sum that wraps to zero is 0, with no half-carry, or 256, with a carry. -/
theorem alu_adc_carry_of_zero_halfCarry (a x : Byte) (cin : Bool) (hzero : (alu .adc a x cin).flags.zero = true)
    (hhalf : (alu .adc a x cin).flags.halfCarry = true) : (alu .adc a x cin).flags.carry = true := by
  simp only [alu_adc_of_sum, lowNibble_eq, decide_eq_true_eq] at hzero hhalf ⊢
  omega

/-- R65: only 0 - 255 - 1 wraps to zero with a borrow. -/
theorem alu_sbc_zero_and_carry_iff (a x : Byte) (cin : Bool) :
    (alu .sbc a x cin).flags.zero = true ∧ (alu .sbc a x cin).flags.carry = true ↔ a = 0x00#8 ∧ x = 0xFF#8 ∧ cin = true := by
  have ha := a.isLt
  have hx := x.isLt
  have hk : b2n cin ≤ 1 := Bool.toNat_le cin
  have hcin : cin = true ↔ b2n cin = 1 := Bool.toNat_eq_one.symm
  simp only [alu_sbc_of_difference, decide_eq_true_eq, ← BitVec.toNat_inj, BitVec.toNat_ofNat, hcin]
  omega

/-- Law V11: no operation leaves another flag byte than those listed. -/
theorem alu_flags_encode_mem (op : AluOp) (a x : Byte) (cin : Bool) : (alu op a x cin).flags.encode ∈ aluFlagBytes op := by
  have hadc (cin : Bool) : (alu .adc a x cin).flags.encode ∈ aluFlagBytes .adc :=
    Flags.encode_mem_flagBytes_adc rfl (alu_adc_carry_of_zero_halfCarry a x cin)
  cases op with
  | add => exact hadc false
  | adc => exact hadc cin
  | sub =>
    refine Flags.encode_mem_flagBytes_sub rfl fun hzero => ?_
    rw [← Bool.not_eq_true]
    intro hcarry
    obtain ⟨_, _, hcin⟩ := (alu_sbc_zero_and_carry_iff a x false).1 ⟨hzero, hcarry⟩
    exact Bool.false_ne_true hcin
  | sbc =>
    refine Flags.encode_mem_flagBytes_sbc rfl fun hzero hcarry => ?_
    obtain ⟨rfl, rfl, rfl⟩ := (alu_sbc_zero_and_carry_iff a x cin).1 ⟨hzero, hcarry⟩
    rfl

/-- Operands, with a carry-in, that leave each of an operation's flag bytes, in the order of `aluFlagBytes`. -/
def flagByteWitnesses : AluOp → List (Byte × Byte × Bool)
  | .add | .adc => [(0, 1, false), (0xF0, 0x20, false), (8, 8, false), (0xFF, 2, false), (0, 0, false), (0x80, 0x80, false),
      (0xFF, 1, false)]
  | .sub => [(1, 0, false), (0, 1, false), (0x1F, 1, false), (8, 9, false), (0, 0, false), (8, 8, false)]
  | .sbc => [(1, 0, false), (0, 1, false), (0x1F, 1, false), (8, 9, false), (0, 0, false), (8, 8, false), (0, 0xFF, true)]

theorem map_flagByteWitnesses (op : AluOp) :
    (flagByteWitnesses op).map (fun w => (alu op w.1 w.2.1 w.2.2).flags.encode) = aluFlagBytes op := by
  cases op <;> rfl

/-- Law V11: the bytes listed are exactly those an operation leaves. -/
theorem exists_alu_flags_encode_iff (op : AluOp) (b : Byte) :
    (∃ (a x : Byte) (cin : Bool), (alu op a x cin).flags.encode = b) ↔ b ∈ aluFlagBytes op := by
  constructor
  · rintro ⟨a, x, cin, rfl⟩
    exact alu_flags_encode_mem op a x cin
  · rw [← map_flagByteWitnesses op, List.mem_map]
    rintro ⟨⟨a, x, cin⟩, _, h⟩
    exact ⟨a, x, cin, h⟩

/-- Law V11: 0xF0 is left by one SBC alone. -/
theorem alu_flags_encode_eq_F0_iff (op : AluOp) (a x : Byte) (cin : Bool) :
    (alu op a x cin).flags.encode = 0xF0#8 ↔ op = .sbc ∧ a = 0x00#8 ∧ x = 0xFF#8 ∧ cin = true := by
  constructor
  · intro h
    have hmem := alu_flags_encode_mem op a x cin
    have hflags : (alu op a x cin).flags = ⟨true, true, true, true⟩ := Flags.encode_inj.1 h
    rw [h] at hmem
    obtain rfl : op = .sbc := by
      revert hmem
      cases op <;> decide
    exact ⟨rfl, (alu_sbc_zero_and_carry_iff a x cin).1 (by simp [hflags])⟩
  · rintro ⟨rfl, rfl, rfl, rfl⟩
    rfl

/-- Settles O12: the bytes listed are those each operation leaves, and 0xF0 is left by one SBC alone. -/
theorem flagBytesEachOperationCanLeave : Obligations.FlagBytesEachOperationCanLeave :=
  ⟨exists_alu_flags_encode_iff .add, exists_alu_flags_encode_iff .adc, exists_alu_flags_encode_iff .sub,
    exists_alu_flags_encode_iff .sbc, alu_flags_encode_eq_F0_iff⟩

/-! ### The invariant of the flag byte -/

/-- Law V11: no operation leaves 0xA0 or 0xD0. -/
theorem alu_flags_encode_ne (op : AluOp) (a x : Byte) (cin : Bool) :
    (alu op a x cin).flags.encode ≠ 0xA0#8 ∧ (alu op a x cin).flags.encode ≠ 0xD0#8 := by
  have hbytes : ∀ b ∈ aluFlagBytes op, b ≠ 0xA0#8 ∧ b ≠ 0xD0#8 := by cases op <;> decide
  exact hbytes _ (alu_flags_encode_mem op a x cin)

/-- R19, R22: where the flags after a clock come from: they are the flags before it, the reset values, a byte the host stores, or
what the ALU answers. -/
theorem step_flags_cases (s : State) : ∃ t, step s = .next t ∧
    (t.flags = s.flags ∨ t.flags = .clear ∨ s.pins.storesTo .flags = true ∨
      ∃ op a x cin, t.flags = (alu op a x cin).flags) := by
  rcases clockEdge_cases s.pins s.nextClock with
    ⟨_, e⟩ | ⟨_, _, e⟩ | ⟨_, _, _, i, _, e⟩ | ⟨hrst, hvalid, hkind, sw, hsw, e⟩
  · exact ⟨_, e, .inr (.inl rfl)⟩
  · exact ⟨_, e, .inl rfl⟩
  · rcases exec_cases i s.nextClock with ⟨_, e'⟩ | ⟨_, op, x, e'⟩
    · exact ⟨_, e.trans e', .inl rfl⟩
    · exact ⟨_, e.trans e', .inr (.inr (.inr ⟨op, _, x, _, rfl⟩))⟩
  · refine ⟨_, e, ?_⟩
    by_cases hsel : sw.sel = .flags
    · exact .inr (.inr (.inl (hsel ▸ Inputs.storesTo_of_decode hrst hvalid hkind hsw)))
    · exact .inl (flags_hostStore_other hsel _)

/-- Settles O47: the flags a clock leaves are the old ones, those of reset, or an operation's, and none of these has the byte
0xA0 or 0xD0. -/
theorem stepKeepsFlagByteReachable : Obligations.StepKeepsFlagByteReachable := by
  rintro s ⟨hA0, hD0, hunstored⟩
  obtain ⟨t, hstep, hflags⟩ := step_flags_cases s
  suffices hbyte : t.flags.encode ≠ 0xA0#8 ∧ t.flags.encode ≠ 0xD0#8 from
    ⟨t, hstep, hbyte.1, hbyte.2, forall_inputs_step hstep hunstored⟩
  rcases hflags with hold | hreset | hstore | ⟨op, a, x, cin, halu⟩
  · exact hold ▸ ⟨hA0, hD0⟩
  · exact hreset ▸ ⟨by decide, by decide⟩
  · simp [pins_storesTo_of_forall hunstored] at hstore
  · exact halu ▸ alu_flags_encode_ne op a x cin

/-- Settles O48: the flag byte is 0x00 and the host presents nothing. -/
theorem resetFlagByteReachable : Obligations.ResetFlagByteReachable := ⟨by decide, by decide, nofun⟩

/-- Settles O50: every register is zero and the host presents nothing. -/
theorem resetUnstoredRegistersZero : Obligations.ResetUnstoredRegistersZero := fun r => ⟨Regs.load_zero r, nofun⟩

end Sys2Proof.Machine

/-! Store words both ways, and the words of the codec table (spec/30, spec/95). -/

namespace Sys2Proof

/-- R25: a selector code names one location. -/
@[simp] theorem Sel.code_ofCode (c : BitVec 3) : (Sel.ofCode c).code = c := by revert c; decide

/-- R55: a store word that decodes is written from what it decodes to. -/
theorem encodeStoreWord_of_decode {w : Word} {x : StoreWord} (h : decodeStoreWord w = .ok x) : encodeStoreWord x = w := by
  obtain ⟨htop, rfl⟩ := decodeStoreWord_eq_ok.1 h
  calc encodeStoreWord ⟨Sel.ofCode (w.extractLsb' 8 3), w.extractLsb' 0 8⟩
      = w.extractLsb' 11 5 ++ w.extractLsb' 8 3 ++ w.extractLsb' 0 8 := by simp [encodeStoreWord, htop]
    _ = w.extractLsb' 8 8 ++ w.extractLsb' 0 8 :=
      congrArg (· ++ _) (BitVec.extractLsb'_append_extractLsb'_eq_extractLsb' (start₁ := 8) (len₁ := 3) rfl)
    _ = w := BitVec.extractLsb'_append_extractLsb'

/-- R55: a store word is reserved when one of the upper five bits is set. -/
theorem decodeStoreWord_eq_error {w : Word} :
    decodeStoreWord w = .error .reservedStoreWord ↔ w.extractLsb' 11 5 ≠ 0#5 := by
  by_cases h : w.extractLsb' 11 5 = 0#5 <;> simp [decodeStoreWord, splitStore, h]

theorem extractLsb'_top_toNat (w : Word) : (w.extractLsb' 11 5).toNat = w.toNat / 2048 := by
  have hw := w.isLt
  simp only [BitVec.extractLsb'_toNat, Nat.shiftRight_eq_div_pow]
  omega

/-- Settles O8: the encoder writes the three fields the decoder reads, and the decoder refuses by the upper one. -/
theorem storeWordsRoundTrip : Obligations.StoreWordsRoundTrip := by
  refine ⟨encodeStoreWord_eq_shift, decodeStoreWord_encodeStoreWord, fun _ _ => encodeStoreWord_of_decode, fun w => ?_⟩
  rw [decodeStoreWord_eq_error, ← extractLsb'_top_toNat, ne_eq, ← BitVec.toNat_inj]
  rfl

/-- Settles O9: each legal word is the encoder's of its instruction, each reserved one has the fields of its class. -/
theorem sampleWordsDecode : Obligations.SampleWordsDecode :=
  ⟨decodeWord_eq_ok.2 rfl, decodeWord_eq_ok.2 rfl, decodeWord_eq_ok.2 rfl, decodeWord_eq_ok.2 rfl, decodeWord_eq_ok.2 rfl,
    decodeWord_eq_ok.2 rfl, decodeWord_eq_ok.2 rfl, decodeWord_eq_ok.2 rfl,
    decodeFields_reservedFamily 0 0 0, decodeFields_reservedForm .add 0 0, decodeFields_badRegister .xor (.inl rfl),
    decodeFields_badImmediate .add 0xFF (by decide), decodeFields_badIndirect .xor (by decide)⟩

end Sys2Proof

/-! Half-carry of SUB, and 16-bit sums and differences in two instructions (spec/40, spec/70). -/

namespace Sys2Proof.Machine

open Sys2Proof

/-! ### The half-carry of SUB (R65, U3) -/

@[simp] theorem lowNibble_and_0xF (v : Byte) : lowNibble (v &&& 0xF#8) = lowNibble v := by
  rw [lowNibble, BitVec.and_assoc, BitVec.and_self, lowNibble]

theorem lowNibble_ofNat {n : Nat} (h : n < 16) : lowNibble (BitVec.ofNat 8 n) = n := by
  rw [lowNibble_eq, BitVec.toNat_ofNat]
  omega

/-- R65: SUB's half-carry is a sum of two nibbles past 15. -/
theorem alu_sub_halfCarry (a x : Byte) (cin : Bool) :
    (alu .sub a x cin).flags.halfCarry = decide (lowNibble a + lowNibble x > 0xF) :=
  alu_halfCarry .sub a x cin

/-- Numbers below `m * n` counted row by row. -/
theorem countP_range_mul (q : Nat → Bool) (m n : Nat) :
    (List.range (m * n)).countP q = ((List.range m).map fun a => (List.range n).countP fun b => q (n * a + b)).sum := by
  induction m with
  | zero => simp
  | succ m ih =>
    rw [Nat.succ_mul, List.range_add, List.countP_append, ih, List.range_succ, List.map_append, List.sum_append,
      List.countP_map]
    simp [Function.comp_def, Nat.mul_comm]

/-- Settles O11: the half-carry is a function of the low nibbles, and the pairs on which its sum and the borrow test differ are
counted. -/
theorem subHalfCarryIsNotBorrow : Obligations.SubHalfCarryIsNotBorrow := by
  refine ⟨fun a x cin => by simp only [alu_sub_halfCarry, lowNibble_and_0xF], ?_⟩
  have hnibbles : ∀ p ∈ List.range 256,
      (alu .sub (BitVec.ofNat 8 (p / 16)) (BitVec.ofNat 8 (p % 16)) false).flags.halfCarry =
        decide (p / 16 + p % 16 > 0xF) := by
    intro p hp
    have hlt := List.mem_range.1 hp
    rw [alu_sub_halfCarry, lowNibble_ofNat (by omega), lowNibble_ofNat (by omega)]
  calc _ = (List.range 256).countP fun p => decide (p / 16 + p % 16 > 0xF) != decide (p / 16 < p % 16) :=
        List.countP_congr fun p hp => by rw [hnibbles p hp]
    _ = 128 := by
      rw [show 256 = 16 * 16 from rfl, countP_range_mul]
      decide

/-! ### Sixteen bits in two instructions (R145) -/

/-- A 16-bit number is 256 times its high byte and its low byte. -/
theorem toNat_append_bytes (h l : Byte) : (h ++ l).toNat = 256 * h.toNat + l.toNat := by
  rw [BitVec.toNat_append, ← Nat.shiftLeft_add_eq_or_of_lt l.isLt, Nat.shiftLeft_eq, Nat.mul_comm]

/-- A 16-bit number is its two bytes put together. -/
theorem append_bytes_eq (x : Word) : x.extractLsb' 8 8 ++ x.extractLsb' 0 8 = x := BitVec.extractLsb'_append_extractLsb'

/-- `b2n` of a test (spec/00 section 6.1). -/
theorem b2n_decide (p : Prop) [Decidable p] : b2n (decide p) = if p then 1 else 0 := by
  by_cases h : p <;> simp [h]

/-- R145: the sum of the low bytes and the sum of the high bytes with its carry are the 16-bit sum and its carry. -/
theorem alu_add_then_adc (xh xl yh yl : Byte) (cin : Bool) :
    let low := alu .add xl yl cin
    let high := alu .adc xh yh low.flags.carry
    high.res ++ low.res = (xh ++ xl) + (yh ++ yl) ∧
      high.flags.carry = decide ((xh ++ xl).toNat + (yh ++ yl).toNat > 65535) := by
  simp only [alu_add_of_sum, alu_adc_of_sum, ← BitVec.toNat_inj, BitVec.toNat_add, toNat_append_bytes, BitVec.toNat_ofNat,
    decide_eq_decide, b2n_decide]
  have hxl := xl.isLt
  have hyl := yl.isLt
  constructor <;> split <;> omega

/-- R145: the difference of the low bytes and that of the high bytes with its borrow are the 16-bit difference and its
borrow. -/
theorem alu_sub_then_sbc (xh xl yh yl : Byte) (cin : Bool) :
    let low := alu .sub xl yl cin
    let high := alu .sbc xh yh low.flags.carry
    high.res ++ low.res = (xh ++ xl) - (yh ++ yl) ∧
      high.flags.carry = decide ((xh ++ xl).toNat < (yh ++ yl).toNat) := by
  simp only [alu_sub_of_difference, alu_sbc_of_difference, ← BitVec.toNat_inj, BitVec.toNat_sub, toNat_append_bytes,
    BitVec.toNat_ofInt, decide_eq_decide, b2n_decide]
  have hxl := xl.isLt
  have hyl := yl.isLt
  have hyh := yh.isLt
  constructor <;> split <;> omega

/-- Settles O30: both answers are the handler's, and the ALU's two sums make up the 16-bit one. -/
theorem addThenAdcAddsSixteenBits : Obligations.AddThenAdcAddsSixteenBits := by
  intro x y s
  have hsum := alu_add_then_adc (x.extractLsb' 8 8) (x.extractLsb' 0 8) (y.extractLsb' 8 8) (y.extractLsb' 0 8) s.flags.carry
  rw [append_bytes_eq, append_bytes_eq] at hsum
  exact ⟨_, _, arith_eq .add _ _, arith_eq .adc _ _, hsum⟩

/-- Settles O31: both answers are the handler's, and the ALU's two differences make up the 16-bit one. -/
theorem subThenSbcSubtractsSixteenBits : Obligations.SubThenSbcSubtractsSixteenBits := by
  intro x y s
  have hdiff := alu_sub_then_sbc (x.extractLsb' 8 8) (x.extractLsb' 0 8) (y.extractLsb' 8 8) (y.extractLsb' 0 8) s.flags.carry
  rw [append_bytes_eq, append_bytes_eq] at hdiff
  exact ⟨_, _, arith_eq .sub _ _, arith_eq .sbc _ _, hdiff⟩

end Sys2Proof.Machine

/-! The strict machine (spec/93 U4): where its runs stop and where they go. -/

namespace Sys2Proof.Machine

open Sys2Proof

theorem strictStep_of_clean {s : State} (h : s.pins.appliesReserved = false) : strictStep s = step s := by
  simp [strictStep, h]

theorem strictStep_of_reserved {s : State} (h : s.pins.appliesReserved = true) :
    strictStep s = .fault (.reservedWord s.pins.cmdKind s.pins.cmdWord) := by
  simp [strictStep, h]

/-- An idle clock applies no word, so the first of `k + 1` clocks is on the ports even where the host's list has run out. -/
theorem clean_take_succ (s : State) (k : Nat) : (∀ p ∈ s.inputs.take (k + 1), p.appliesReserved = false) ↔
    s.pins.appliesReserved = false ∧ ∀ p ∈ s.inputs.tail.take k, p.appliesReserved = false := by
  have hidle : Inputs.idle.appliesReserved = false := rfl
  cases h : s.inputs <;> simp [State.pins, h, hidle]

/-- U4: a run of the strict machine answers next exactly when none of its clocks applies a reserved word. -/
theorem exists_strictRun_next_iff (k : Nat) (s : State) :
    (∃ t : State, strictCore.run k s = .next t) ↔ ∀ p ∈ s.inputs.take k, p.appliesReserved = false := by
  induction k generalizing s with
  | zero => exact iff_of_true ⟨s, rfl⟩ (by simp)
  | succ k ih =>
    rw [clean_take_succ]
    cases h : s.pins.appliesReserved with
    | true =>
      have hstop : strictCore.step s = .fault _ := strictStep_of_reserved h
      simp [Host.Core.run, hstop]
    | false =>
      obtain ⟨u, hstep, hu⟩ := step_next s
      rw [run_succ strictCore k ((strictStep_of_clean h).trans hstep), ih, hu]
      simp

/-- U4: where a run of the strict machine answers next, the machine answers the same. -/
theorem run_of_strictRun {k : Nat} {s t : State} (h : strictCore.run k s = .next t) : core.run k s = .next t := by
  induction k generalizing s with
  | zero => exact h
  | succ k ih =>
    obtain ⟨hclean, _⟩ := (clean_take_succ s k).1 ((exists_strictRun_next_iff (k + 1) s).1 ⟨t, h⟩)
    obtain ⟨u, hstep, _⟩ := step_next s
    rw [run_succ strictCore k ((strictStep_of_clean hclean).trans hstep)] at h
    exact (run_succ core k hstep).trans (ih h)

/-- Settles O51: both laws of the strict machine's runs, each by induction on the clocks. -/
theorem strictRunStopsAtReservedWords : Obligations.StrictRunStopsAtReservedWords :=
  ⟨exists_strictRun_next_iff, fun _ _ _ => run_of_strictRun, fun _ => strictStep_of_reserved⟩

end Sys2Proof.Machine

/-! Host listings (R56): what the clock of a line does, and reading back what is written. -/

namespace Sys2Proof.Machine

open Sys2Proof

/-! ### The clock of an instruction and of a line -/

/-- The table word of an encoded instruction is its EXECUTE command. -/
theorem fetchInputs_toNat (w : Word) : fetchInputs 16 w.toNat = Inputs.execute w := by
  rw [fetchInputs, Nat.mod_eq_of_lt w.isLt, BitVec.ofNat_toNat, BitVec.setWidth_eq]

/-- R66: the clock of an instruction's word runs the instruction. -/
theorem step_present_execute (i : Instr) (s : State) : step (s.present (Inputs.execute (encodeWord i))) = exec i s :=
  clockEdge_execute s rfl rfl rfl (decodeWord_encodeWord i)

/-- Settles O33: an EXECUTE clock runs what its word decodes to, and `withFetchWord` presents such a clock. -/
theorem stepRunsTheDecodedInstruction : Obligations.StepRunsTheDecodedInstruction := by
  refine ⟨fun _ _ _ s hword => clockEdge_execute s rfl rfl rfl hword, fun i s => ?_⟩
  rw [State.withFetchWord, fetchInputs_toNat, step_present_execute]

/-- Settles O53: each line's clock is one of the steps of R61. -/
theorem hostLinesDoWhatTheySay : Obligations.HostLinesDoWhatTheySay := fun s =>
  ⟨fun i => step_present_execute i s, fun r n => step_present_store ⟨.reg r, n⟩ s, fun n => step_present_store ⟨.flags, n⟩ s,
    clockEdge_reset s rfl, clockEdge_idle s rfl rfl⟩

/-! ### Notation -/

theorem hexDigit_hexChar : ∀ n < 16, hexDigit (hexChar n) = some n := by decide

/-- R56: `0x` and two characters are read as two hex digits, the high one first. -/
theorem readByte_hex (c d : Char) :
    readByte ['0', 'x', c, d] = (hexDigit c).bind fun h => (hexDigit d).map fun l => BitVec.ofNat 8 (16 * h + l) := by
  change (match hexDigit c, hexDigit d with
    | some h, some l => some (BitVec.ofNat 8 (16 * h + l))
    | _, _ => none) = _
  cases hexDigit c <;> cases hexDigit d <;> rfl

@[simp] theorem readByte_spellByte (n : Byte) : readByte (spellByte n) = some n := by
  have hn := n.isLt
  rw [spellByte, readByte_hex, hexDigit_hexChar _ (by omega), hexDigit_hexChar _ (by omega), Option.bind_some, Option.map_some,
    Nat.div_add_mod, BitVec.ofNat_toNat, BitVec.setWidth_eq]

@[simp] theorem readReg_spellReg (r : Reg) : readReg (spellReg r) = some r := by cases r <;> rfl

@[simp] theorem readSel_spellSel (x : Sel) : readSel (spellSel x) = some x := by
  cases x with
  | reg r => cases r <;> rfl
  | flags => rfl

@[simp] theorem readOperand_spellOperand (x : Operand) : readOperand (spellOperand x) = some x := by
  cases x with
  | reg r => cases r <;> rfl
  | imm n => simp [spellOperand, readOperand]
  | ind => rfl

/-- R56: a family's name and a space are read as the family, and the rest as the operand. -/
theorem readLine_spellFamily (f : Family) (cs : List Char) :
    readLine (spellFamily f ++ ' ' :: cs) = (readOperand cs).map fun x => .instr (.of f x) := by
  cases f <;> rfl

/-- Settles O52: each part of a line reads back from its spelling. -/
theorem hostLinesReadBack : Obligations.HostLinesReadBack := by
  intro l
  cases l with
  | instr i => simp [spellLine, readLine_spellFamily, Instr.of_family_operand]
  | store sel n => simp [spellLine, readLine]
  | reset => rfl
  | idle => rfl

end Sys2Proof.Machine
